-- ==== Sys2Proof/Word.lean ====
section
/-! DEFINITION. The bus word. Every transfer on the engine's window, the command word and the status word
are 32 bits wide (00_scope.md R4 `BUSW`, 30_encoding.md R50, 10_state.md R16). -/

namespace Sys2Proof

/-- A 32-bit word of the host bus. -/
abbrev Word := BitVec 32

end Sys2Proof
end

