-- ==== Sys2Proof/Config.lean ====
section
/-! DEFINITION. What an implementation fixes. The spec leaves one parameter open, the register width `W`
(00_scope.md R4, 92_eei_decisions.md D4): a multiple of 32, at least 32. A machine's state carries its own
number of words per register (log entry 1), so that a statement about every state is a statement about
every width; `Config.refNW` is the width of the instance that `State.reset` describes. The spec leaves no
RESULT open, so there is no free value here. -/

namespace Sys2Proof

/-- `NW = W / 32` of the spec's reference instance `W = 256` (00_scope.md R4).
DESIGN CHOICE, unsafe: `W` is open in the spec; log entry 1. -/
def Config.refNW : Nat := 8

/-- Width in bits of a data register of an instance with `nw` words per register (00_scope.md R4). -/
abbrev Config.width (nw : Nat) : Nat := 32 * nw

end Sys2Proof
end

