-- ==== Sys2Proof/Syntax.lean ====
section
/-! DEFINITION. The engine's instructions: its five commands, one constructor per row of
spec/opcode_table.json. A command has no operand field, no mode field and no immediate
(30_encoding.md R50, R51): every command reads and writes fixed registers (R52). -/

namespace Sys2Proof

/-- The commands of 30_encoding.md R52. -/
inductive Instr where
  /-- field reduce, 40_field_pipeline.md R65 -/
  | fred
  /-- field inverse, 40_field_pipeline.md R66 -/
  | finv
  /-- point add, 41_point_add_double.md R72 -/
  | padd
  /-- point double, 41_point_add_double.md R73 -/
  | pdbl
  /-- point multiply, 42_scalar_mul.md R81 -/
  | pmul
deriving DecidableEq, Repr

end Sys2Proof
end

