-- ==== Sys2Proof/Machine/State.lean ====
section
/-! DEFINITION. The state of the engine and of the two agents that act on it, as plain data, and reset.
Every piece of state that spec/10_state.md names is a field; INVENTORY.md lists them with their rules. -/

namespace Sys2Proof.Machine

/-- The nine data registers (10_state.md R10). -/
inductive RegName where
  | rp | ra | x1 | y1 | x2 | y2 | k | xr | yr
deriving DecidableEq, Repr

/-- The `W`-bit pattern of a data register as its bus words, word 0 (bits 31:0) first: the register's
pattern is `{word[NW-1], ..., word[1], word[0]}` (20_memory.md R32). -/
abbrev Pattern := List Word

/-- The data registers of 10_state.md R10, each under its own name. There are no aliases and no banks. -/
structure Regs where
  /-- `RP`, index 0: the field modulus `p`, signed -/
  rp : Pattern
  /-- `RA`, index 1: the curve coefficient `a`, signed -/
  ra : Pattern
  /-- `X1`, index 2: x of point operand 1, and the operand of FRED and FINV, signed -/
  x1 : Pattern
  /-- `Y1`, index 3: y of point operand 1, signed -/
  y1 : Pattern
  /-- `X2`, index 4: x of point operand 2, signed -/
  x2 : Pattern
  /-- `Y2`, index 5: y of point operand 2, signed -/
  y2 : Pattern
  /-- `K`, index 6: the scalar of PMUL, unsigned -/
  k : Pattern
  /-- `XR`, index 7: x of the result, and the result of FRED and FINV, signed -/
  xr : Pattern
  /-- `YR`, index 8: y of the result, signed -/
  yr : Pattern
deriving DecidableEq, Repr

/-- The fields of `STATUS` that are storage (10_state.md R16); bits 31:8 are none and read as 0. -/
structure Status where
  /-- bit 0: 1 from the acceptance of a command until its completion -/
  busy : Bool
  /-- bit 1: 1 from the completion of a command until the next command is accepted -/
  done : Bool
  /-- bit 2: 1 iff the last completed command ended with an error -/
  err : Bool
  /-- bit 3, sticky: a host write was dropped because `BUSY = 1` -/
  ovr : Bool
  /-- bits 7:4: the error code of the last completed command -/
  errcode : BitVec 4
deriving DecidableEq, Repr

/-- A pair of integers: a point as the arithmetic layer sees it (00_scope.md R8, "Point (data)"). -/
structure Point where
  x : Int
  y : Int
deriving DecidableEq, Repr

/-- PMUL's hidden state (10_state.md R20): running total `T`, doubling point `D`, working scalar `s`, and
whether they are live ("Live when: during PMUL"). -/
structure PmulLoop where
  live : Bool
  t : Point
  d : Point
  s : Nat
deriving DecidableEq, Repr

/-- Not live: what reset leaves (10_state.md R23) and what a command's acceptance and completion leave. DESIGN CHOICE, safe: log entry 5. -/
def PmulLoop.idle : PmulLoop := { live := false, t := ⟨0, 0⟩, d := ⟨0, 0⟩, s := 0 }

/-- One transfer of the host on the slave port: byte offset `off` in the window, transfer size `size` in
bytes, a direction, write data (20_memory.md R30). DESIGN CHOICE, safe: offsets are natural numbers and
write data is one word; log entry 10. -/
inductive Transfer where
  | read (off size : Nat)
  | write (off size : Nat) (wdata : Word)
deriving DecidableEq, Repr

/-- One event of the total order of 20_memory.md R37: a host transfer, the reset event (70 R130), an
advance of the engine inside a command, or the engine's completion step. -/
inductive Event where
  /-- the port serves one host transfer -/
  | host (t : Transfer)
  /-- the reset input is asserted -/
  | reset
  /-- the engine works on the accepted command without completing it: `BUSY` stays 1 (70 R140) -/
  | work
  /-- the engine completes the accepted command (10_state.md R18, R19) -/
  | complete
deriving DecidableEq, Repr

/-- The port's answer to the last transfer: `rdata` (reads only) and `berr` (20_memory.md R30, R35). DESIGN CHOICE, safe:
it is kept until the next transfer, and a write's answer has no data; log entry 6. -/
inductive Reply where
  /-- no transfer has been served since reset -/
  | silent
  | read (rdata : Word) (berr : Bool)
  | write (berr : Bool)
deriving DecidableEq, Repr

/-- The error conditions of 60_exceptions.md R111. -/
inductive CmdError where
  | illegalCommand
  | invalidModulus
  | undefinedInverse
  | nonInvertible
deriving DecidableEq, Repr

/-- The engine, the port and the events still to come. -/
structure State where
  /-- the instance's words per data register, `NW = W / 32` (00_scope.md R4); the model's own field, which
  no step changes (log entry 1) -/
  nw : Nat
  regs : Regs
  status : Status
  /-- the command word latched at acceptance (10_state.md R20) -/
  op : Word
  /-- PMUL's hidden `T`, `D`, `s` (10_state.md R20) -/
  loop : PmulLoop
  /-- the port's last answer (20_memory.md R30) -/
  reply : Reply
  /-- the events still to come, in the total order of 20_memory.md R37; the model's own field
  (log entry 2) -/
  agenda : List Event
deriving DecidableEq, Repr

/-- Reasons to stop with a fault. There is NONE: an error of the engine ends the command and leaves a code
in `STATUS` (60_exceptions.md R110), a refused transfer answers `berr` (20_memory.md R35), and a run has no
stuck outcome (70_reset_and_hazards.md R144). Log entry 12. -/
inductive Fault where
deriving DecidableEq, Repr

/-- Reasons to give an instruction no meaning. -/
inductive Refusal where
  /-- Raised only by an arm of `exec` whose instruction has no meaning yet; no arm is left so. Safe. -/
  | notModelled (mnemonic : String)
deriving DecidableEq, Repr

/-- All registers of an instance with `nw` words per register at 0 (10_state.md R23). -/
def Regs.zero (nw : Nat) : Regs :=
  let z : Pattern := List.replicate nw 0#32
  { rp := z, ra := z, x1 := z, y1 := z, x2 := z, y2 := z, k := z, xr := z, yr := z }

/-- `STATUS = 0` (10_state.md R23). -/
def Status.zero : Status := { busy := false, done := false, err := false, ovr := false, errcode := 0#4 }

/-- The state of an instance with `nw` words per register right after reset: every bit of its state is zero
and no command is in progress (10_state.md R23, 70_reset_and_hazards.md R130). -/
def State.resetOf (nw : Nat) : State :=
  { nw := nw, regs := Regs.zero nw, status := Status.zero, op := 0#32, loop := PmulLoop.idle,
    reply := .silent, agenda := [] }

/-- The reference instance (`W = 256`) right after reset, with nothing on the agenda. -/
def State.reset : State := State.resetOf Config.refNW

end Sys2Proof.Machine
end

