-- ==== Sys2Proof/Machine/Flags.lean ====
section
/-! DEFINITION. The status word: its layout (10_state.md R16), the error codes (60_exceptions.md R111) and the
updates of it that acceptance, completion, an error and a dropped write make (10_state.md R17 to R19). -/

namespace Sys2Proof.Machine

/-- `STATUS` as the host reads it: `{0, ERRCODE, OVR, ERR, DONE, BUSY}` (10_state.md R16). -/
def Status.word (st : Status) : Word :=
  0#24 ++ st.errcode ++ BitVec.ofBool st.ovr ++ BitVec.ofBool st.err ++ BitVec.ofBool st.done ++
    BitVec.ofBool st.busy

/-- `code(E)` (60_exceptions.md R111). -/
def CmdError.code : CmdError → BitVec 4
  | .illegalCommand => 1#4
  | .invalidModulus => 2#4
  | .undefinedInverse => 3#4
  | .nonInvertible => 4#4

/-- A command is accepted (10_state.md R17). -/
def Status.accepted (_st : Status) : Status :=
  { busy := true, done := false, err := false, ovr := false, errcode := 0#4 }

/-- A command completes without error: `ERR` and `ERRCODE` stay as they are (10_state.md R18). -/
def Status.completed (st : Status) : Status := { st with busy := false, done := true }

/-- A command completes with error `e` (10_state.md R19, 60_exceptions.md R117). -/
def Status.failed (e : CmdError) (st : Status) : Status :=
  { st with busy := false, done := true, err := true, errcode := e.code }

/-- A host write was dropped because `BUSY = 1` (10_state.md R17, 20_memory.md R34). -/
def Status.overrun (st : Status) : Status := { st with ovr := true }

end Sys2Proof.Machine
end

