-- ==== Sys2Proof/Machine/Operands.lean ====
section
/-! DEFINITION. Reading a data register: bit patterns as integers (00_scope.md R5, 10_state.md R11) and the
register's place among the nine (10_state.md R10). -/

namespace Sys2Proof.Machine

/-- A pattern read as an unsigned integer; word 0 is the least significant (20_memory.md R32). -/
def patternNat : Pattern → Nat
  | [] => 0
  | w :: ws => w.toNat + 2 ^ 32 * patternNat ws

/-- `sext_N(v)` (00_scope.md R5). -/
def sext (n v : Nat) : Int := if v < 2 ^ (n - 1) then (v : Int) else (v : Int) - 2 ^ n

/-- `tc_N(i)` for `N = 32 * nw`, as `nw` words, the least significant first (00_scope.md R5,
20_memory.md R32). -/
def tcPattern : (nw : Nat) → Int → Pattern
  | 0, _ => []
  | nw + 1, v => BitVec.ofInt 32 v :: tcPattern nw (v / 2 ^ 32)

/-- The signed value of a register's pattern, `sext_W(bits)` (10_state.md R11). -/
def signedValue (nw : Nat) (p : Pattern) : Int := sext (Config.width nw) (patternNat p)

/-- The register named (10_state.md R10). -/
def Regs.get (r : Regs) : RegName → Pattern
  | .rp => r.rp
  | .ra => r.ra
  | .x1 => r.x1
  | .y1 => r.y1
  | .x2 => r.x2
  | .y2 => r.y2
  | .k => r.k
  | .xr => r.xr
  | .yr => r.yr

/-- The register's index (10_state.md R10). -/
def RegName.index : RegName → Nat
  | .rp => 0
  | .ra => 1
  | .x1 => 2
  | .y1 => 3
  | .x2 => 4
  | .y2 => 5
  | .k => 6
  | .xr => 7
  | .yr => 8

/-- The register of an index; there are nine (10_state.md R10). -/
def RegName.ofIndex : Nat → Option RegName
  | 0 => some .rp
  | 1 => some .ra
  | 2 => some .x1
  | 3 => some .y1
  | 4 => some .x2
  | 5 => some .y2
  | 6 => some .k
  | 7 => some .xr
  | 8 => some .yr
  | _ => none

/-- Column "Host access" of 10_state.md R10: all registers but `XR` and `YR` may be written. -/
def RegName.hostWritable : RegName → Bool
  | .rp => true
  | .ra => true
  | .x1 => true
  | .y1 => true
  | .x2 => true
  | .y2 => true
  | .k => true
  | .xr => false
  | .yr => false

/-- Column "Value type" of 10_state.md R10: only `K` is unsigned. -/
def RegName.isSigned : RegName → Bool
  | .rp => true
  | .ra => true
  | .x1 => true
  | .y1 => true
  | .x2 => true
  | .y2 => true
  | .k => false
  | .xr => true
  | .yr => true

/-- `x[REG]`: the value of a register (00_scope.md R6, 10_state.md R11). -/
def State.value (r : RegName) (s : State) : Int :=
  if r.isSigned then signedValue s.nw (s.regs.get r) else (patternNat (s.regs.get r) : Int)

/-- `x[K]` as the unsigned integer it is (10_state.md R11). -/
def State.scalar (s : State) : Nat := patternNat s.regs.k

/-- Point operand 1, `(x[X1], x[Y1])`. -/
def State.point1 (s : State) : Point := ⟨s.value .x1, s.value .y1⟩

/-- Point operand 2, `(x[X2], x[Y2])`. -/
def State.point2 (s : State) : Point := ⟨s.value .x2, s.value .y2⟩

/-- The result pair, `(x[XR], x[YR])`. -/
def State.result (s : State) : Point := ⟨s.value .xr, s.value .yr⟩

end Sys2Proof.Machine
end

