-- ==== Sys2Proof/Machine/Ops.lean ====
section
/-! DEFINITION. The named operations on the state: register writes, the acceptance of a command, its completion
without error, and `raise E` (10_state.md R17 to R19, 60_exceptions.md R117). There is no return from an error:
the next accepted command clears it (60_exceptions.md R118), so `State.accept` is also the way back. -/

namespace Sys2Proof.Machine

/-- Replace the pattern of the register named (10_state.md R10). -/
def Regs.set (r : Regs) (n : RegName) (p : Pattern) : Regs :=
  match n with
  | .rp => { r with rp := p }
  | .ra => { r with ra := p }
  | .x1 => { r with x1 := p }
  | .y1 => { r with y1 := p }
  | .x2 => { r with x2 := p }
  | .y2 => { r with y2 := p }
  | .k => { r with k := p }
  | .xr => { r with xr := p }
  | .yr => { r with yr := p }

/-- `x[REG] <- v`: store `tc_W(v)` (10_state.md R11; for `K` and `0 <= v < 2^W` that is `v` itself). -/
def State.writeValue (r : RegName) (v : Int) (s : State) : State :=
  { s with regs := s.regs.set r (tcPattern s.nw v) }

/-- The acceptance of command word `c`, in one step (10_state.md R17). The data registers do not change; the
hidden loop is not live (R20). -/
def State.accept (c : Word) (s : State) : State :=
  { s with op := c, status := s.status.accepted, loop := PmulLoop.idle }

/-- The command is over: `BUSY <- 0`, `DONE <- 1`, and PMUL's hidden state is dead (10_state.md R18, R20). -/
def State.completeOk (s : State) : State :=
  { s with status := s.status.completed, loop := PmulLoop.idle }

/-- Completion without error of FRED and FINV: `XR` alone is written, in one step (10_state.md R18). -/
def State.commitX (v : Int) (s : State) : State := (s.writeValue .xr v).completeOk

/-- Completion without error of PADD, PDBL and PMUL: `XR` and `YR` are written together (10_state.md R18). -/
def State.commitPoint (q : Point) (s : State) : State :=
  ((s.writeValue .xr q.x).writeValue .yr q.y).completeOk

/-- `raise E`: the command in progress ends with error `e`; no data register changes
(10_state.md R19, 60_exceptions.md R117). -/
def State.raise (e : CmdError) (s : State) : State :=
  { s with status := s.status.failed e, loop := PmulLoop.idle }

/-- A write that was dropped because the engine is busy leaves its trace (10_state.md R17, 20_memory.md R34). -/
def State.dropWrite (s : State) : State := { s with status := s.status.overrun }

/-- Every legal command first tests `x[RP] < 2` and raises InvalidModulus (60_exceptions.md R113); otherwise it
goes on with the modulus. -/
def State.withModulus (s : State) (go : Int → State) : State :=
  if s.value .rp < 2 then s.raise .invalidModulus else go (s.value .rp)

/-- What a point function answers is committed, or its condition is raised (10_state.md R18, R19). -/
def State.commitOrRaise (r : Except CmdError Point) (s : State) : State :=
  match r with
  | .ok q => s.commitPoint q
  | .error e => s.raise e

/-- An illegal command word completes with IllegalCommand, tested before everything else
(30_encoding.md R53, 60_exceptions.md R112). -/
def State.completeIllegal (s : State) : State := s.raise .illegalCommand

end Sys2Proof.Machine
end

