-- ==== Sys2Proof/Machine/Bus.lean ====
section
/-! DEFINITION. The host bus window (20_memory.md R30 to R35): its address map, which transfers the port admits, what a
read returns and what a write does. Offsets are relative to the window's base, which is the platform's (R30). -/

namespace Sys2Proof.Machine

/-- `RS`, the size in bytes of one data register (20_memory.md R31). -/
def regBytes (nw : Nat) : Nat := 4 * nw

/-- `0x100 + 9*RS`, the first offset after the data registers (20_memory.md R31). -/
def dataEnd (nw : Nat) : Nat := 0x100 + 9 * regBytes nw

/-- The smallest power of two not less than `0x100 + 9*RS` (20_memory.md R31). -/
def windowSize (nw : Nat) : Nat := 2 ^ (Nat.log2 (dataEnd nw - 1) + 1)

/-- The offset of word `j` of register `r` (20_memory.md R32). -/
def wordOffset (nw : Nat) (r : RegName) (j : Nat) : Nat := 0x100 + r.index * regBytes nw + 4 * j

/-- The offset of `CMD` (20_memory.md R31). -/
def cmdOffset : Nat := 0x000

/-- The offset of `STATUS` (20_memory.md R31). -/
def statusOffset : Nat := 0x004

/-- What stands at an offset of the window (20_memory.md R31). -/
inductive Location where
  | cmd
  | status
  | data (r : RegName) (j : Nat)
  | reserved
deriving DecidableEq, Repr

/-- The address map (20_memory.md R31, R33): register `i = (off-0x100) div RS`, word
`j = ((off-0x100) mod RS) div 4`. -/
def locate (nw off : Nat) : Location :=
  if off = cmdOffset then .cmd
  else if off = statusOffset then .status
  else if 0x100 ≤ off ∧ off < dataEnd nw then
    match RegName.ofIndex ((off - 0x100) / regBytes nw) with
    | some r => .data r ((off - 0x100) % regBytes nw / 4)
    | none => .reserved
  else .reserved

/-- The only admitted transfer is a 32-bit word at a multiple of 4 inside the window (20_memory.md R35). -/
def admitted (nw off size : Nat) : Bool :=
  size == 4 && off % 4 == 0 && decide (off < windowSize nw)

/-- Word `j` of register `r`: bits `[32*j+31 : 32*j]` of its pattern (20_memory.md R32, R33). -/
def State.regWord (s : State) (r : RegName) (j : Nat) : Word := (s.regs.get r).getD j 0#32

/-- The word an admitted read returns (20_memory.md R33). -/
def State.readWord (s : State) (off : Nat) : Word :=
  match locate s.nw off with
  | .cmd => 0#32
  | .status => s.status.word
  | .data r j => s.regWord r j
  | .reserved => 0#32

/-- A write of word `c` to `CMD` (10_state.md R17): accepted iff `BUSY = 0`, else dropped. -/
def State.writeCmd (c : Word) (s : State) : State :=
  if s.status.busy then s.dropWrite else s.accept c

/-- A write of word `v` to word `j` of register `r` (20_memory.md R34): `XR` and `YR` ignore it; the others take it
iff `BUSY = 0`, else it is dropped. -/
def State.writeReg (r : RegName) (j : Nat) (v : Word) (s : State) : State :=
  if r.hostWritable then
    if s.status.busy then s.dropWrite
    else { s with regs := s.regs.set r ((s.regs.get r).set j v) }
  else s

/-- What an admitted write does (20_memory.md R34). -/
def State.writeWord (off : Nat) (v : Word) (s : State) : State :=
  match locate s.nw off with
  | .cmd => s.writeCmd v
  | .status => s
  | .data r j => s.writeReg r j v
  | .reserved => s

/-- The port serves one transfer, completely, and answers (20_memory.md R33 to R37). A refused transfer changes nothing,
reads 0 and answers `berr = 1` (R35). -/
def State.serve (t : Transfer) (s : State) : State :=
  match t with
  | .read off size =>
    if admitted s.nw off size then { s with reply := .read (s.readWord off) false }
    else { s with reply := .read 0#32 true }
  | .write off size v =>
    if admitted s.nw off size then { s.writeWord off v with reply := .write false }
    else { s with reply := .write true }

/-- The reset event: every bit of the engine's state is zero and a command in progress is abandoned
(70_reset_and_hazards.md R130). The instance's width and the events of the outside world that are still to come are no
state of the engine and stay (log entry 11). -/
def State.applyReset (s : State) : State := { State.resetOf s.nw with agenda := s.agenda }

end Sys2Proof.Machine
end

