-- ==== Sys2Proof/WellFormed.lean ====
section
/-! DEFINITION. Well-formedness of what stands outside the machine: a command word's format
(30_encoding.md R50), an instance's width (00_scope.md R4), an instruction as syntax. -/

namespace Sys2Proof

/-- Every instruction is well formed: a command carries no operand to check (30_encoding.md R50, R51). -/
def Instr.wf : Instr → Bool
  | .fred => true
  | .finv => true
  | .padd => true
  | .pdbl => true
  | .pmul => true

/-- Format `C`: bits 31:8 of a command word must be 0 (30_encoding.md R50). -/
def commandFormatOk (c : Word) : Bool := c.extractLsb' 8 24 == 0#24

/-- `W` is a multiple of 32 and at least 32 (00_scope.md R4). -/
def Config.widthOk (w : Nat) : Bool := w % 32 == 0 && decide (32 ≤ w)

end Sys2Proof
end

