-- ==== Sys2Proof/Decode.lean ====
section
/-! DEFINITION. The command decoder, total on all `2^32` words, and the encoder
(30_encoding.md R50 to R54). There is no instruction fetch and hence no byte order of instructions
(20_memory.md R32): the decoder's input is the 32-bit word the host wrote to `CMD`. -/

namespace Sys2Proof

/-- Why a word is no command (30_encoding.md R53). Both reasons complete with IllegalCommand. -/
inductive DecodeError where
  /-- bits 31:8 are not zero -/
  | zeroFieldNotZero
  /-- bits 7:0 are none of the five opcodes -/
  | unassignedOpcode
deriving DecidableEq, Repr

/-- Field `opcode`, bits 7:0 (30_encoding.md R50). -/
def opcodeField (c : Word) : BitVec 8 := c.extractLsb' 0 8

/-- The opcode map of 30_encoding.md R52. -/
def decodeOpcode (op : BitVec 8) : Except DecodeError Instr :=
  if op = 0x01#8 then .ok .fred
  else if op = 0x02#8 then .ok .finv
  else if op = 0x10#8 then .ok .padd
  else if op = 0x11#8 then .ok .pdbl
  else if op = 0x12#8 then .ok .pmul
  else .error .unassignedOpcode

/-- The decoder's verdict on any word: one of five commands, or illegal (30_encoding.md R52, R53). -/
def decode (c : Word) : Except DecodeError Instr :=
  if commandFormatOk c then decodeOpcode (opcodeField c) else .error .zeroFieldNotZero

/-- The opcode of a command (30_encoding.md R52). -/
def opcodeOf : Instr → BitVec 8
  | .fred => 0x01#8
  | .finv => 0x02#8
  | .padd => 0x10#8
  | .pdbl => 0x11#8
  | .pmul => 0x12#8

/-- The command word of an instruction: `zero` field above, `opcode` below (30_encoding.md R50). -/
def encode (i : Instr) : Word := 0#24 ++ opcodeOf i

/-- What the decoder reads from the low `nbits` of a command word whose bits are `w`. A command is one
32-bit word, so a longer one is no command; bits above `nbits` are 0. -/
def decodeTableWord (nbits w : Nat) : Option Instr :=
  if nbits ≤ 32 ∧ w < 2 ^ nbits then
    match decode (BitVec.ofNat 32 w) with
    | .ok i => some i
    | .error _ => none
  else none

end Sys2Proof
end

