-- ==== Sys2Proof/Machine/Field.lean ====
section
/-! DEFINITION. The field-element reduction and inversion pipeline (40_field_pipeline.md R60 to R64) and the two
commands that expose it, FRED (R65) and FINV (R66). All arithmetic is exact, in `Int` (R60). -/

namespace Sys2Proof.Machine

/-- `rem_t(v, m) = sign(v) * (|v| - m * floor(|v| / m))`: the remainder that takes the sign of the dividend
(40_field_pipeline.md R61). PRESUMED by the spec itself (G1) and unobservable (R62); log entry 9. -/
def remT (v m : Int) : Int := v.sign * (v.natAbs - m * (v.natAbs / m))

/-- `red(v, p)`: stage 1 the remainder, stage 2 "adding `p` if negative" (40_field_pipeline.md R62). -/
def red (v p : Int) : Int :=
  let r1 := remT v p
  if r1 < 0 then r1 + p else r1

/-- `gcd(c, p)` of two positive integers (40_field_pipeline.md R63). -/
def gcdOf (c p : Int) : Nat := Nat.gcd c.natAbs p.natAbs

/-- The extended Euclidean algorithm on the coefficient of `c`: `r0 ≡ s0 * c` and `r1 ≡ s1 * c` modulo `p`
throughout; it answers `s0` when `r1` reaches 0. The first argument bounds the number of divisions. The
algorithm is free and unobservable (40_field_pipeline.md R63, D25); DESIGN CHOICE, log entry 8. -/
def euclid : Nat → Int → Int → Int → Int → Int
  | 0, _, _, s0, _ => s0
  | n + 1, r0, r1, s0, s1 => if r1 = 0 then s0 else euclid n r1 (r0 % r1) s1 (s0 - r0 / r1 * s1)

/-- The canonical inverse of a unit `c` of `[1, p)` (40_field_pipeline.md R63). Every second division at least
halves the remainder, so twice the bit length of `p`, and two, divisions are enough. -/
def unitInverse (c p : Int) : Int := red (euclid (2 * (Nat.log2 p.toNat + 1) + 2) p c 0 1) p

/-- `inv(v, p)`, with its two undefined conditions (40_field_pipeline.md R63). -/
def inv (v p : Int) : Except CmdError Int :=
  let c := red v p
  if c = 0 then .error .undefinedInverse
  else if gcdOf c p ≠ 1 then .error .nonInvertible
  else .ok (unitInverse c p)

/-- FRED (40_field_pipeline.md R65). -/
def execFred (s : State) : Host.Outcome State Fault Refusal :=
  .next (s.withModulus fun p => s.commitX (red (s.value .x1) p))

/-- FINV (40_field_pipeline.md R66). -/
def execFinv (s : State) : Host.Outcome State Fault Refusal :=
  .next (s.withModulus fun p =>
    match inv (s.value .x1) p with
    | .ok u => s.commitX u
    | .error e => s.raise e)

end Sys2Proof.Machine
end

