-- ==== Sys2Proof/Machine/PointArith.lean ====
section
/-! DEFINITION. `addPoint` (41_point_add_double.md R70, R71) and the commands PADD (R72) and PDBL (R73). Points are
compared structurally, as pairs of integers (10_state.md R13); no operand is reduced or checked (R75). -/

namespace Sys2Proof.Machine

/-- The identity sentinel `O`, the pair `(0, 0)` (10_state.md R14). -/
def Point.identity : Point := ⟨0, 0⟩

/-- The slope's numerator: case 3 (`P == Q`) or case 4 (41_point_add_double.md R71). -/
def slopeNum (P Q : Point) (a : Int) : Int := if P = Q then 3 * P.x * P.x + a else Q.y - P.y

/-- The slope's denominator: case 3 (`P == Q`) or case 4 (41_point_add_double.md R71). -/
def slopeDen (P Q : Point) : Int := if P = Q then 2 * P.y else Q.x - P.x

/-- `Rx` and `Ry` from the slope; `Ry` uses the already reduced `Rx` (41_point_add_double.md R71). -/
def pointOnLine (P Q : Point) (lam p : Int) : Point :=
  let rx := red (lam * lam - P.x - Q.x) p
  ⟨rx, red (lam * (P.x - rx) - P.y) p⟩

/-- `addPoint(P, Q, a, p)` (41_point_add_double.md R71): cases 1 and 2 are raw copies (R72, D18); a zero denominator
is the identity point, not an error (R71, 90_conflicts.md C5). -/
def addPoint (P Q : Point) (a p : Int) : Except CmdError Point :=
  if P = Point.identity then .ok Q
  else if Q = Point.identity then .ok P
  else
    match inv (slopeDen P Q) p with
    | .error .undefinedInverse => .ok Point.identity
    | .error e => .error e
    | .ok u => .ok (pointOnLine P Q (red (slopeNum P Q a * u) p) p)

/-- PADD (41_point_add_double.md R72). -/
def execPadd (s : State) : Host.Outcome State Fault Refusal :=
  .next (s.withModulus fun p => s.commitOrRaise (addPoint s.point1 s.point2 (s.value .ra) p))

/-- PDBL (41_point_add_double.md R73): both arguments are operand 1. -/
def execPdbl (s : State) : Host.Outcome State Fault Refusal :=
  .next (s.withModulus fun p => s.commitOrRaise (addPoint s.point1 s.point1 (s.value .ra) p))

end Sys2Proof.Machine
end

