-- ==== Sys2Proof/Machine/ScalarMul.lean ====
section
/-! DEFINITION. `multiplyPoint` (42_scalar_mul.md R80), the command PMUL (R81), and the engine's progress inside a
PMUL through the hidden `T`, `D`, `s` (10_state.md R20). -/

namespace Sys2Proof.Machine

/-- Before the first iteration: `T = O`, `D` a raw copy of `P`, `s` a copy of the scalar (42_scalar_mul.md R80). -/
def PmulLoop.start (P : Point) (k : Nat) : PmulLoop :=
  { live := true, t := Point.identity, d := P, s := k }

/-- One iteration: add the current `D` if the bit is set, then double `D`, at every bit (42_scalar_mul.md R80,
90_conflicts.md C1, D19). The conditional add comes before the doubling (60_exceptions.md R119). -/
def PmulLoop.iterate (a p : Int) (l : PmulLoop) : Except CmdError PmulLoop :=
  match if l.s % 2 = 1 then addPoint l.t l.d a p else .ok l.t with
  | .error e => .error e
  | .ok t =>
    match addPoint l.d l.d a p with
    | .error e => .error e
    | .ok d => .ok { live := true, t := t, d := d, s := l.s / 2 }

/-- `bitlen(k)`: the number of binary digits up to the most significant 1 bit, 0 for `k = 0`
(42_scalar_mul.md R80). -/
def bitlen (k : Nat) : Nat := if k = 0 then 0 else Nat.log2 k + 1

/-- `n` iterations of `while s != 0`, fewer if `s` reaches 0 or an iteration raises (42_scalar_mul.md R80). -/
def PmulLoop.iterations (a p : Int) : Nat → PmulLoop → Except CmdError PmulLoop
  | 0, l => .ok l
  | n + 1, l =>
    if l.s = 0 then .ok l
    else
      match l.iterate a p with
      | .error e => .error e
      | .ok l' => PmulLoop.iterations a p n l'

/-- The rest of the loop and the final fold of each coordinate by `red` (42_scalar_mul.md R80, C9). The loop runs
`bitlen(s)` times. -/
def PmulLoop.finish (a p : Int) (l : PmulLoop) : Except CmdError Point :=
  match l.iterations a p (bitlen l.s) with
  | .error e => .error e
  | .ok l' => .ok ⟨red l'.t.x p, red l'.t.y p⟩

/-- `multiplyPoint(P, k, a, p)` (42_scalar_mul.md R80). -/
def multiplyPoint (P : Point) (k : Nat) (a p : Int) : Except CmdError Point :=
  (PmulLoop.start P k).finish a p

/-- Where a PMUL in progress stands: its hidden state if that is live, else before the first iteration. -/
def State.pmulLoop (s : State) : PmulLoop :=
  if s.loop.live then s.loop else PmulLoop.start s.point1 s.scalar

/-- PMUL (42_scalar_mul.md R81): run the loop to its end from where it stands, and commit or raise. When the hidden
state is not live this is `multiplyPoint` of operand 1 and `K`. -/
def execPmul (s : State) : Host.Outcome State Fault Refusal :=
  .next (s.withModulus fun p => s.commitOrRaise (s.pmulLoop.finish (s.value .ra) p))

/-- The engine advances a PMUL by one iteration without completing it; an iteration that raises ends the command at
once (42_scalar_mul.md R81). Nothing but the hidden state changes while no error is met (70 R140). -/
def State.pmulWork (s : State) : State :=
  s.withModulus fun p =>
    if s.pmulLoop.s = 0 then { s with loop := s.pmulLoop }
    else
      match s.pmulLoop.iterate (s.value .ra) p with
      | .error e => s.raise e
      | .ok l => { s with loop := l }

/-- The engine works on the accepted command without completing it. Only PMUL has hidden state to advance
(10_state.md R20); log entry 4. -/
def State.engineWork (s : State) : State :=
  match decode s.op with
  | .ok .pmul => s.pmulWork
  | .ok .fred => s
  | .ok .finv => s
  | .ok .padd => s
  | .ok .pdbl => s
  | .error _ => s

end Sys2Proof.Machine
end

