-- ==== Sys2Proof/Machine/Dispatch.lean ====
section
/-! DEFINITION. The completion of a command: one arm per instruction. -/

namespace Sys2Proof.Machine

def exec (i : Instr) (s : State) : Host.Outcome State Fault Refusal :=
  match i with
  | .fred => Sys2Proof.Machine.execFred s
  | .finv => Sys2Proof.Machine.execFinv s
  | .padd => Sys2Proof.Machine.execPadd s
  | .pdbl => Sys2Proof.Machine.execPdbl s
  | .pmul => Sys2Proof.Machine.execPmul s

end Sys2Proof.Machine
end

