-- ==== Sys2Proof/Machine/Step.lean ====
section
/-! DEFINITION. One step of the machine: the next event of the total order of 20_memory.md R37 takes effect completely.
The events are the host's transfers, reset, and the engine's own work and completion (00_scope.md R7, 70 R140). -/

namespace Sys2Proof.Machine

/-- The engine's completion step (10_state.md R18, R19): the latched word is decoded, an illegal one completes with
IllegalCommand, a command runs. With no command in progress there is nothing to complete. -/
def State.completeStep (s : State) : Host.Outcome State Fault Refusal :=
  if s.status.busy then
    match decode s.op with
    | .ok i => exec i s
    | .error _ => .next s.completeIllegal
  else .next s

/-- The engine's working step: `BUSY` stays 1 unless the work meets an error (70 R140, 42_scalar_mul.md R81). -/
def State.workStep (s : State) : State := if s.status.busy then s.engineWork else s

/-- One step. With nothing on the agenda a busy engine completes, since every accepted command completes after finite
time (70 R142), and an idle one stays as it is (10_state.md R15); log entry 3. -/
def step (s : State) : Host.Outcome State Fault Refusal :=
  match s.agenda with
  | [] => s.completeStep
  | .host t :: rest => .next (State.serve t { s with agenda := rest })
  | .reset :: rest => .next (State.applyReset { s with agenda := rest })
  | .work :: rest => .next (State.workStep { s with agenda := rest })
  | .complete :: rest => State.completeStep { s with agenda := rest }

/-- `s` with the command word `w` accepted and the engine's completion the next event, so that the very next step runs
that command. It stands for the host's write of `w` to `CMD` (10_state.md R17); log entry 7. -/
def State.withFetchWord (s : State) (_nbits w : Nat) : State :=
  { s.accept (BitVec.ofNat 32 w) with agenda := .complete :: s.agenda }

end Sys2Proof.Machine
end

