-- ==== Sys2Proof/Machine/HostScript.lean ====
section
/-! DEFINITION. The host script notation (30_encoding.md R55): each line as the events it puts on the agenda. A value
the host has read stands in a line as a number; how often WAIT polls before the engine completes is the line's argument,
because the spec fixes no latency (70 R142); log entry 17 names the schedules this leaves out. -/

namespace Sys2Proof.Machine

/-- The lines of 30_encoding.md R55 (a comment line does nothing and has no constructor). -/
inductive HostLine where
  /-- `WR reg, value` -/
  | wr (r : RegName) (v : Int)
  /-- `CMD mnemonic` -/
  | cmd (i : Instr)
  /-- `CMD 0xNNNNNNNN`, a raw word -/
  | cmdRaw (w : Word)
  /-- `WAIT`: `polls` reads of `STATUS` before the engine completes, and one after -/
  | wait (polls : Nat)
  /-- `RD reg -> name` -/
  | rd (r : RegName)
  /-- `RDS -> name` -/
  | rds
deriving DecidableEq, Repr

/-- The integer `v` fits register `r` (10_state.md R11). -/
def representable (nw : Nat) (r : RegName) (v : Int) : Bool :=
  if r.isSigned then decide (-(2 ^ (Config.width nw - 1) : Int) ≤ v ∧ v < 2 ^ (Config.width nw - 1))
  else decide (0 ≤ v ∧ v < 2 ^ Config.width nw)

/-- A line whose value does not fit the register cannot be expressed (93_implementation_defined.md I6); log entry 13. -/
def HostLine.wf (nw : Nat) : HostLine → Bool
  | .wr r v => representable nw r v
  | .cmd i => i.wf
  | .cmdRaw _ => true
  | .wait _ => true
  | .rd _ => true
  | .rds => true

/-- A read of `STATUS`. -/
def pollEvent : Event := .host (.read statusOffset 4)

/-- The expansion of a line (30_encoding.md R55). DESIGN CHOICE, unsafe for a claim about every schedule of a script: the
completion, whose moment the spec leaves open (70 R142), falls inside `WAIT` and never before it, so that a line between `CMD`
and `WAIT` meets a busy engine; and `WAIT` ends after `polls + 1` reads without a test of `DONE`, also on an engine that was
idle with `DONE = 0`, where R55's line would go on polling; log entry 17. -/
def HostLine.events (nw : Nat) : HostLine → List Event
  | .wr r v =>
    (List.range nw).map fun j => .host (.write (wordOffset nw r j) 4 ((tcPattern nw v).getD j 0#32))
  | .cmd i => [.host (.write cmdOffset 4 (encode i))]
  | .cmdRaw w => [.host (.write cmdOffset 4 w)]
  | .wait polls => List.replicate polls pollEvent ++ [.complete, pollEvent]
  | .rd r => (List.range nw).map fun j => .host (.read (wordOffset nw r j) 4)
  | .rds => [pollEvent]

/-- The value `RD` gives its variable: the words read, assembled as `sext_W`, or `zext_W` for `K`
(30_encoding.md R55). -/
def assembleRead (nw : Nat) (r : RegName) (words : List Word) : Int :=
  if r.isSigned then signedValue nw words else (patternNat words : Int)

/-- `CURVE a, p`. -/
def curveLines (a p : Int) : List HostLine := [.wr .rp p, .wr .ra a]

/-- `LDP1 (x, y)`. -/
def ldp1Lines (q : Point) : List HostLine := [.wr .x1 q.x, .wr .y1 q.y]

/-- `LDP2 (x, y)`. -/
def ldp2Lines (q : Point) : List HostLine := [.wr .x2 q.x, .wr .y2 q.y]

/-- `LDK k`. -/
def ldkLines (k : Nat) : List HostLine := [.wr .k k]

/-- `RUN mnemonic`, its `WAIT` with `polls` reads before the completion (log entry 17). -/
def runLines (i : Instr) (polls : Nat) : List HostLine := [.cmd i, .wait polls]

/-- `RDP -> (u, v)`. -/
def rdpLines : List HostLine := [.rd .xr, .rd .yr]

/-- `MOVR1`, with the values `t` that its two reads gave. -/
def movr1Lines (t : Point) : List HostLine := rdpLines ++ ldp1Lines t

/-- `MOVR2`, with the values `t` that its two reads gave. -/
def movr2Lines (t : Point) : List HostLine := rdpLines ++ ldp2Lines t

/-- A script is the sequence of its lines (70 R144). -/
def scriptEvents (nw : Nat) (ls : List HostLine) : List Event := ls.flatMap (HostLine.events nw)

end Sys2Proof.Machine
end

