-- ==== Sys2Proof/Machine/HostSoftware.lean ====
section
/-! DEFINITION. What 43_host_software_context.md fixes of the software that drives the engine: the codecs and the session's
functions over point values, and the command sequences by which a session uses the engine. It is no hardware (00_scope.md
R3); `step` does not use it. Where the spec leaves a reading open (the group-size count, `toDigits`) or allows two forms (the
negation in decrypt) the choice is an argument; log entries 14 to 18. -/

namespace Sys2Proof.Machine

/-- Chunks of `g` items, the last possibly shorter; `fuel` bounds their number. -/
def chunksOf {α : Type} (g : Nat) : (fuel : Nat) → List α → List (List α)
  | 0, _ => []
  | _ + 1, [] => []
  | fuel + 1, l => l.take g :: chunksOf g fuel (l.drop g)

/-- A chunk as a big-endian base-65536 integer: byte `j` contributes `byte[j] * 65536^(len-1-j)` (43 R91). -/
def chunkValue (bytes : List (BitVec 8)) : Nat := bytes.foldl (fun acc b => acc * 65536 + b.toNat) 0

/-- Append the sentinel `32` if the length is odd (43 R91, R94). -/
def padOdd (vs : List Nat) : List Nat := if vs.length % 2 = 1 then vs ++ [32] else vs

/-- `fromDigits(bytes, groupSize)` for `groupSize >= 1` (43 R91). -/
def fromDigits (bytes : List (BitVec 8)) (groupSize : Nat) : List Nat :=
  padOdd ((chunksOf groupSize bytes.length bytes).map chunkValue)

/-- The remainders of repeated division by 65536 until the quotient is 0, least significant first (43 R92). -/
def remainders65536 : (fuel : Nat) → Nat → List Nat
  | 0, _ => []
  | fuel + 1, v => v % 65536 :: (if v / 65536 = 0 then [] else remainders65536 fuel (v / 65536))

/-- The digits that `toDigits` gives one value: the remainders reversed, and the final quotient 0 behind them in the
literal reading (43 R92, 91_not_in_source.md N14). -/
def valueDigits (literal : Bool) (v : Nat) : List Nat :=
  (remainders65536 (Nat.log2 v + 1) v).reverse ++ (if literal then [0] else [])

/-- `toDigits(values)` (43 R92), with the reading of "append the final quotient" as argument. -/
def toDigits (literal : Bool) (vs : List Nat) : List Nat := vs.flatMap (valueDigits literal)

/-- The digit group size of a private scalar: the number of its base-65536 digits, or of the non-zero ones, minus one
(43 R97, 91_not_in_source.md N13). DESIGN CHOICE, unsafe: for `n = 0` the spec gives no value, since a count of no non-zero
digits minus one is no size; the subtraction of natural numbers makes it 0; log entry 14. -/
def groupSize (skipZeros : Bool) (n : Nat) : Nat :=
  let ds := remainders65536 (Nat.log2 n + 1) n
  (if skipZeros then (ds.filter fun d => d != 0).length else ds.length) - 1

/-- The non-singularity that a host should check and the reference does not: `4a³ + 27b² ≠ 0 mod p` (43 R104).
DESIGN CHOICE, unsafe for `p < 2`, where the spec does not define `red` (60 R113); log entry 18. -/
def nonSingularCurve (a b p : Int) : Bool := red (4 * a * a * a + 27 * b * b) p != 0

/-- Errors that reach the caller of a session (43 R104): one the engine reported, or EncodingMismatch. -/
inductive HostError where
  | engine (e : CmdError)
  | encodingMismatch
deriving DecidableEq, Repr

/-- An outcome of the engine, as the session's caller sees it. -/
def liftEngine {α : Type} : Except CmdError α → Except HostError α
  | .ok v => .ok v
  | .error e => .error (.engine e)

/-- Group consecutive pairs; a last unpaired value is not reached after padding (43 R94). -/
def pairPoints : List Nat → List Point
  | x :: y :: rest => ⟨x, y⟩ :: pairPoints rest
  | [_] => []
  | [] => []

/-- `generatePoints(values)` (43 R94). -/
def generatePoints (vs : List Nat) : List Point := pairPoints (padOdd vs)

/-- `breakPoints(points)` (43 R95). -/
def breakPoints (qs : List Point) : List Int := qs.flatMap fun q => [q.x, q.y]

/-- The coordinates of decrypted points as values of the codec (43 R90). A value of `fromDigits` is never negative, so a
negative one cannot be reconstructed: EncodingMismatch. DEDUCED, safe: log entry 16. -/
def toValues : List Int → Except HostError (List Nat)
  | [] => .ok []
  | v :: vs =>
    if v < 0 then .error .encodingMismatch
    else
      match toValues vs with
      | .error e => .error e
      | .ok ns => .ok (v.toNat :: ns)

/-- A digit as a byte. A digit of 256 or more is no byte value: EncodingMismatch (43 R92). DEDUCED, safe: log entry 16. -/
def toByte (d : Nat) : Except HostError (BitVec 8) :=
  if d < 256 then .ok (BitVec.ofNat 8 d) else .error .encodingMismatch

/-- "One flat byte-value sequence" as bytes (43 R92). -/
def toBytes : List Nat → Except HostError (List (BitVec 8))
  | [] => .ok []
  | d :: ds =>
    match toByte d with
    | .error e => .error e
    | .ok b =>
      match toBytes ds with
      | .error e => .error e
      | .ok bs => .ok (b :: bs)

/-- The bytes that the padding of `fromDigits` adds behind a buffer: the sentinel `32` if the number of chunks is odd
(43 R91). The caller strips it (43 R93). -/
def paddingOf (bytes : List (BitVec 8)) (groupSize : Nat) : List (BitVec 8) :=
  if (chunksOf groupSize bytes.length bytes).length % 2 = 1 then [32#8] else []

/-- The buffer "can be chunked and reconstructed symmetrically" (43 R104): it is not empty, the group size is at least 1, and
the digits of its values are its bytes and the padding. DEDUCED, safe: log entry 16.
DESIGN CHOICE, unsafe: a chunk of the single byte 0 passes, since its one digit is 0, though 93_implementation_defined.md U4
says that a host model should not claim the round trip for a zero byte at a chunk start; a longer chunk that begins with 0
does not pass; log entry 16. -/
def codecSymmetric (bytes : List (BitVec 8)) (groupSize : Nat) : Bool :=
  decide (bytes ≠ []) && decide (1 ≤ groupSize) &&
    decide (toDigits false (fromDigits bytes groupSize) = (bytes ++ paddingOf bytes groupSize).map BitVec.toNat)

/-- A byte buffer as message points: `fromDigits`, then `generatePoints` (43 R90, R105). -/
def pointsOfBuffer (bytes : List (BitVec 8)) (groupSize : Nat) : Except HostError (List Point) :=
  if codecSymmetric bytes groupSize then .ok (generatePoints (fromDigits bytes groupSize)) else .error .encodingMismatch

/-- Points as a byte buffer: `breakPoints`, then `toDigits` (43 R90, R105). -/
def bufferOfPoints (literal : Bool) (qs : List Point) : Except HostError (List (BitVec 8)) :=
  match toValues (breakPoints qs) with
  | .error e => .error e
  | .ok vs => toBytes (toDigits literal vs)

/-- A session: its domain parameters, its public point and its digit group size, fixed at construction
(43 R97, R98, R103). -/
structure Session where
  a : Int
  b : Int
  p : Int
  n : Nat
  g : Point
  pa : Point
  group : Nat
deriving DecidableEq, Repr

/-- `getPublicKey()`: `{a, b, p, Pa}` (43 R98). -/
def Session.publicKey (u : Session) : Int × Int × Int × Point := (u.a, u.b, u.p, u.pa)

/-- `getPrivateKey()`: `{a, b, p, n}` (43 R98). -/
def Session.privateKey (u : Session) : Int × Int × Int × Nat := (u.a, u.b, u.p, u.n)

/-- The public key point `Pa = multiplyPoint(G, n)` of a session's construction (43 R97).
DESIGN CHOICE, unsafe for `p < 2`, where the spec defines no value (41 R71) and the engine reports InvalidModulus
(60 R113): the value of `multiplyPoint` stands there; log entry 18. -/
def sessionPublic (a p : Int) (G : Point) (n : Nat) : Except CmdError Point := multiplyPoint G n a p

/-- Construction from `(a, b, p, n)` and the constant `G`; the group size comes from a copy of `n` (43 R97).
DESIGN CHOICE, unsafe for `p < 2`: a session is constructed there too, where the engine reports InvalidModulus (60 R113); log
entry 18. -/
def constructSession (skipZeros : Bool) (a b p : Int) (n : Nat) (G : Point) : Except CmdError Session :=
  match sessionPublic a p G n with
  | .error e => .error e
  | .ok pa => .ok { a := a, b := b, p := p, n := n, g := G, pa := pa, group := groupSize skipZeros n }

/-- `addPoint(Q, S)` for every point of a list, the first error ending it. For `p < 2`: log entry 18. -/
def addToAll (a p : Int) (S : Point) : List Point → Except CmdError (List Point)
  | [] => .ok []
  | q :: qs =>
    match addPoint q S a p with
    | .error e => .error e
    | .ok c =>
      match addToAll a p S qs with
      | .error e => .error e
      | .ok cs => .ok (c :: cs)

/-- `encrypt(points)`: the ephemeral point `kG` and `C_i = addPoint(M_i, kPa)` (43 R99, R102).
DESIGN CHOICE, unsafe for `p < 2`, where the spec defines no value (41 R71) and the engine reports InvalidModulus
(60 R113): the values of `multiplyPoint` and `addPoint` stand there; log entry 18. -/
def sessionEncrypt (a p : Int) (G Pa : Point) (k : Nat) (ms : List Point) : Except CmdError (Point × List Point) :=
  match multiplyPoint G k a p with
  | .error e => .error e
  | .ok kG =>
    match multiplyPoint Pa k a p with
    | .error e => .error e
    | .ok kPa =>
      match addToAll a p kPa ms with
      | .error e => .error e
      | .ok cs => .ok (kG, cs)

/-- The negation in decrypt, read literally: the y-coordinate negated as an integer (43 R101). -/
def negateRaw (S : Point) : Point := ⟨S.x, -S.y⟩

/-- The negation in decrypt, canonical: `p - Sy`, or 0 when `Sy = 0` (43 R101). -/
def negateCanonical (p : Int) (S : Point) : Point := ⟨S.x, if S.y = 0 then 0 else p - S.y⟩

/-- The form in which a host loads `-S` (43 R101). -/
inductive NegationForm where
  | raw
  | canonical
deriving DecidableEq, Repr

/-- The negation in decrypt, in the host's form (43 R101); log entry 15. -/
def negateAs (form : NegationForm) (p : Int) (S : Point) : Point :=
  match form with
  | .raw => negateRaw S
  | .canonical => negateCanonical p S

/-- `decrypt(kG, ciphertexts)`: `M_i = addPoint(C_i, -S)` with `S = multiplyPoint(kG, n)` (43 R100).
DESIGN CHOICE, unsafe for `p < 2`, where the spec defines no value (41 R71) and the engine reports InvalidModulus
(60 R113): the values of `multiplyPoint` and `addPoint` stand there; log entry 18. -/
def sessionDecrypt (form : NegationForm) (a p : Int) (n : Nat) (kG : Point) (cs : List Point) :
    Except CmdError (List Point) :=
  match multiplyPoint kG n a p with
  | .error e => .error e
  | .ok S => addToAll a p (negateAs form p S) cs

/-- Byte buffer to ciphertext: the first half of the data flow of 43 R90. The ciphertext is the pair of the ephemeral point
and the ciphertext points (43 R105). For `p < 2`: log entry 18. -/
def Session.encryptBuffer (u : Session) (k : Nat) (bytes : List (BitVec 8)) : Except HostError (Point × List Point) :=
  match pointsOfBuffer bytes u.group with
  | .error e => .error e
  | .ok ms => liftEngine (sessionEncrypt u.a u.p u.g u.pa k ms)

/-- Ciphertext to byte buffer: the second half of the data flow of 43 R90. The padding stays in the buffer (43 R93). For
`p < 2`: log entry 18. -/
def Session.decryptBuffer (u : Session) (form : NegationForm) (literal : Bool) (kG : Point) (cs : List Point) :
    Except HostError (List (BitVec 8)) :=
  match liftEngine (sessionDecrypt form u.a u.p u.n kG cs) with
  | .error e => .error e
  | .ok ms => bufferOfPoints literal ms

/-- The engine's part of a session's construction (43 R97). Its one command is polled `polls` times before it completes; log
entry 17. -/
def constructScript (a p : Int) (G : Point) (n polls : Nat) : List HostLine :=
  curveLines a p ++ ldp1Lines G ++ ldkLines n ++ runLines .pmul polls ++ rdpLines

/-- One PADD per point of a list, its result read back (43 R99, R100).
DESIGN CHOICE, unsafe for a claim about every schedule: one poll count stands for every command of the script, though each
may take its own time (70 R142); log entry 17. -/
def addEachScript (qs : List Point) (polls : Nat) : List HostLine :=
  qs.flatMap fun q => ldp1Lines q ++ runLines .padd polls ++ rdpLines

/-- The engine's part of `encrypt`, with `kPa` the point its second `RDP` gave (43 R99).
DESIGN CHOICE, unsafe for a claim about every schedule: one poll count stands for every command of the script, though each
may take its own time (70 R142); log entry 17. -/
def encryptScript (a p : Int) (G Pa kPa : Point) (k polls : Nat) (ms : List Point) : List HostLine :=
  curveLines a p ++ ldp1Lines G ++ ldkLines k ++ runLines .pmul polls ++ rdpLines ++
    ldp1Lines Pa ++ runLines .pmul polls ++ rdpLines ++ ldp2Lines kPa ++ addEachScript ms polls

/-- The engine's part of `decrypt`, with `S` the point its `RDP` gave (43 R100, R101).
DESIGN CHOICE, unsafe for a claim about every schedule: one poll count stands for every command of the script, though each
may take its own time (70 R142); log entry 17. -/
def decryptScript (form : NegationForm) (a p : Int) (kG S : Point) (n polls : Nat) (cs : List Point) : List HostLine :=
  curveLines a p ++ ldp1Lines kG ++ ldkLines n ++ runLines .pmul polls ++ rdpLines ++
    ldp2Lines (negateAs form p S) ++ addEachScript cs polls

end Sys2Proof.Machine
end

