-- ==== Sys2Proof/Safety.lean ====
section
/-! DEFINITION. The terms claims are stated in: the machine's invariant, what a command leaves unchanged, which events are
host writes to the engine, and the mathematical objects the arithmetic is compared with. -/

namespace Sys2Proof.Machine

/-- What holds of every reachable state: the register width is legal and every register has it (00_scope.md R4,
10_state.md R10); the status invariants of 10_state.md R16 and the code range of 60_exceptions.md R111; PMUL's hidden state
is live only during a legal PMUL (10_state.md R20). -/
structure State.Inv (s : State) : Prop where
  width : 1 ≤ s.nw
  regs : ∀ r, (s.regs.get r).length = s.nw
  exclusive : ¬(s.status.busy = true ∧ s.status.done = true)
  errDone : s.status.err = true → s.status.done = true
  errcodeErr : s.status.errcode ≠ 0#4 ↔ s.status.err = true
  errcodeRange : s.status.errcode.toNat ≤ 4
  loopLive : s.loop.live = true → s.status.busy = true ∧ decode s.op = .ok .pmul ∧ 2 ≤ s.value .rp
  loopDead : s.loop.live = false → s.loop = PmulLoop.idle

/-- A live hidden loop is where PMUL's loop stands after some iterations on the operands the registers hold
(42_scalar_mul.md R80). -/
def State.LoopOnTrack (s : State) : Prop :=
  s.loop.live = true →
    ∃ n, (PmulLoop.start s.point1 s.scalar).iterations (s.value .ra) (s.value .rp) n = .ok s.loop

/-- What a command leaves unchanged when it may write the registers `written`: the width, the command latch, the port's
answer, the agenda, every other register, and every word of the window but `STATUS` and the words of `written`. -/
structure Frame (written : List RegName) (s t : State) : Prop where
  nw : t.nw = s.nw
  op : t.op = s.op
  reply : t.reply = s.reply
  agenda : t.agenda = s.agenda
  regs : ∀ r, r ∉ written → t.regs.get r = s.regs.get r
  window : ∀ off, off ≠ statusOffset → (∀ r ∈ written, ∀ j, locate s.nw off ≠ .data r j) →
    t.readWord off = s.readWord off

/-- `STATUS` after a completion without error: `BUSY` and `DONE` change, nothing else (10_state.md R18). -/
def CompletedOk (s t : State) : Prop :=
  t.status.busy = false ∧ t.status.done = true ∧ t.status.err = s.status.err ∧
    t.status.errcode = s.status.errcode ∧ t.status.ovr = s.status.ovr

/-- `STATUS` after a completion with error `e` (10_state.md R19). -/
def CompletedErr (e : CmdError) (s t : State) : Prop :=
  t.status.busy = false ∧ t.status.done = true ∧ t.status.err = true ∧
    t.status.errcode = e.code ∧ t.status.ovr = s.status.ovr

/-- An admitted host write to `CMD` or to a host-writable data register: the writes that a busy engine drops
(10_state.md R17, 20_memory.md R34). -/
def Event.writesEngine (nw : Nat) : Event → Bool
  | .host (.write off size _) =>
    admitted nw off size &&
      match locate nw off with
      | .cmd => true
      | .status => false
      | .data r _ => r.hostWritable
      | .reserved => false
  | .host (.read _ _) => false
  | .reset => false
  | .work => false
  | .complete => false

/-- An event by which a busy engine goes on or is looked at: work, or a host read (70 R140). -/
def Event.isPassive : Event → Bool
  | .work => true
  | .host (.read _ _) => true
  | .host (.write _ _ _) => false
  | .reset => false
  | .complete => false

/-- `v` is canonical with respect to `p` (00_scope.md R8). -/
abbrev Canonical (p v : Int) : Prop := 0 ≤ v ∧ v < p

/-- Both coordinates are canonical. -/
abbrev Point.Canonical (p : Int) (q : Point) : Prop :=
  Machine.Canonical p q.x ∧ Machine.Canonical p q.y

/-- A point whose coordinates fit a signed register of an instance with `nw` words. -/
def Point.Fits (nw : Nat) (q : Point) : Prop :=
  (-(2 : Int) ^ (Config.width nw - 1) ≤ q.x ∧ q.x < 2 ^ (Config.width nw - 1)) ∧
    (-(2 : Int) ^ (Config.width nw - 1) ≤ q.y ∧ q.y < 2 ^ (Config.width nw - 1))

/-- `R` is the point the slope `num / den` gives from `P` and `Q`, in residues modulo `p`, with canonical coordinates
(41_point_add_double.md R71): `λ` is any integer with `λ * den ≡ num`. -/
def OnSlope (p num den : Int) (P Q R : Point) : Prop :=
  R.Canonical p ∧ ∀ lam : Int, lam * den ≡ num [ZMOD p] →
    R.x ≡ lam * lam - P.x - Q.x [ZMOD p] ∧ R.y ≡ lam * (P.x - R.x) - P.y [ZMOD p]

/-- Command `i` completes without error from `s`, its result pair meets `R`, and nothing but `XR`, `YR` and `STATUS`
changes (10_state.md R18). -/
def CompletesWith (i : Instr) (s : State) (R : Point → Prop) : Prop :=
  ∃ t, exec i s = .next t ∧ R t.result ∧ CompletedOk s t ∧ t.loop.live = false ∧ Frame [.xr, .yr] s t

/-- Command `i` completes without error from `s`, the value of `XR` meets `R`, and nothing but `XR` and `STATUS` changes
(10_state.md R18). -/
def CompletesWithX (i : Instr) (s : State) (R : Int → Prop) : Prop :=
  ∃ t, exec i s = .next t ∧ R (t.value .xr) ∧ CompletedOk s t ∧ t.loop.live = false ∧ Frame [.xr] s t

/-- Command `i` ends with error `e` from `s`, and nothing but `STATUS` changes (10_state.md R19). -/
def TrapsWith (i : Instr) (s : State) (e : CmdError) : Prop :=
  ∃ t, exec i s = .next t ∧ CompletedErr e s t ∧ t.loop.live = false ∧ Frame [] s t

/-- Every bit of the engine's state is zero (10_state.md R23). -/
def State.AllZero (s : State) : Prop :=
  (∀ r, s.value r = 0) ∧ (∀ r, ∀ w ∈ s.regs.get r, w = 0#32) ∧ s.status.word = 0#32 ∧ s.op = 0#32 ∧
    s.loop = { live := false, t := ⟨0, 0⟩, d := ⟨0, 0⟩, s := 0 }

/-- Double-and-add over a list of binary digits, the least significant first: the loop of 42_scalar_mul.md R80 with the
scalar decomposed beforehand. -/
def doubleAndAdd (a p : Int) : List Bool → (T D : Point) → Except CmdError Point
  | [], T, _ => .ok T
  | bit :: bits, T, D =>
    match if bit then addPoint T D a p else .ok T with
    | .error e => .error e
    | .ok T' =>
      match addPoint D D a p with
      | .error e => .error e
      | .ok D' => doubleAndAdd a p bits T' D'

/-- The short Weierstrass curve `y² = x³ + a·x + b` over the integers modulo `p` (00_scope.md R1). -/
def shortCurve (p : Nat) (a b : Int) : WeierstrassCurve.Affine (ZMod p) :=
  { a₁ := 0, a₂ := 0, a₃ := 0, a₄ := (a : ZMod p), a₆ := (b : ZMod p) }

/-- The engine's representation of a point of a curve modulo `p`: the sentinel for the identity, canonical coordinates for
an affine point (10_state.md R14). -/
def pointOf {p : Nat} {W : WeierstrassCurve.Affine (ZMod p)} : W.Point → Point
  | .zero => Point.identity
  | .some x y _ => ⟨(x.val : Int), (y.val : Int)⟩

end Sys2Proof.Machine
end

