-- ==== Sys2Proof/Certificates/Slice0/Obligations.lean ====
section
/-! DEFINITION. The statements for the provers. Each docstring names the rule of spec/ it formalises. A premise `s.Inv` or
`s.LoopOnTrack` rules out states no run reaches; `ResetMeetsTheInvariants`, `StepKeepsTheInvariant` and
`StepKeepsTheLoopOnTrack` state that they hold of every reachable state. -/

open Sys2Proof Sys2Proof.Machine

/-! ### Encoding -/

/-- 30_encoding.md section 2 (R52): the words that select a command, as numbers. -/
def Obligations.DecodeSelectsTheFiveWords : Prop :=
  ∀ w : Word,
    (decode w = .ok .fred ↔ w.toNat = 0x00000001) ∧ (decode w = .ok .finv ↔ w.toNat = 0x00000002) ∧
    (decode w = .ok .padd ↔ w.toNat = 0x00000010) ∧ (decode w = .ok .pdbl ↔ w.toNat = 0x00000011) ∧
    (decode w = .ok .pmul ↔ w.toNat = 0x00000012)

/-- 30_encoding.md sections 1 and 2: decoding an encoded instruction gives it back, and a word that decodes is the
encoding of what it decodes to. -/
def Obligations.DecodeAndEncodeAgree : Prop :=
  (∀ i : Instr, i.wf = true → decode (encode i) = .ok i) ∧ ∀ (w : Word) (i : Instr), decode w = .ok i → encode i = w

/-- 30_encoding.md section 2: a few words, written out. -/
def Obligations.SampleWordsDecode : Prop :=
  decode 0x00000001#32 = .ok .fred ∧ decode 0x00000010#32 = .ok .padd ∧ decode 0x00000012#32 = .ok .pmul ∧
    decode 0x00000110#32 = .error .zeroFieldNotZero ∧ decode 0x00000000#32 = .error .unassignedOpcode

/-- 30_encoding.md R53, 60_exceptions.md R112: an illegal word is accepted like a command and completes with
IllegalCommand, whatever `RP` holds; no data register changes. -/
def Obligations.IllegalWordCompletesWithIllegalCommand : Prop :=
  ∀ (s : State) (w : Word) (rest : List Event), s.status.busy = false →
    (w.extractLsb' 8 24 ≠ 0#24 ∨ (w.extractLsb' 0 8).toNat ∉ [0x01, 0x02, 0x10, 0x11, 0x12]) →
    s.agenda = .host (.write 0x000 4 w) :: .complete :: rest →
    (∃ e, decode w = .error e) ∧
    ∃ t u, step s = .next t ∧ t.status.busy = true ∧ t.op = w ∧ t.regs = s.regs ∧
      step t = .next u ∧ u.regs = s.regs ∧ u.agenda = rest ∧
      u.status = { busy := false, done := true, err := true, ovr := false, errcode := 1#4 }

/-! ### Registers and their values -/

/-- 10_state.md R11: the value of a register, its range, and what a register write stores. -/
def Obligations.RegisterValuesAndWrites : Prop :=
  ∀ s : State, s.Inv →
    (∀ r : RegName, r ≠ .k →
      s.value r = (if patternNat (s.regs.get r) < 2 ^ (32 * s.nw - 1) then (patternNat (s.regs.get r) : Int)
        else (patternNat (s.regs.get r) : Int) - 2 ^ (32 * s.nw)) ∧
      -(2 : Int) ^ (32 * s.nw - 1) ≤ s.value r ∧ s.value r < 2 ^ (32 * s.nw - 1)) ∧
    (s.value .k = patternNat (s.regs.get .k) ∧ 0 ≤ s.value .k ∧ s.value .k < 2 ^ (32 * s.nw)) ∧
    (∀ (r : RegName) (v : Int), r ≠ .k → -(2 : Int) ^ (32 * s.nw - 1) ≤ v → v < 2 ^ (32 * s.nw - 1) →
      (s.writeValue r v).value r = v ∧
      (patternNat ((s.writeValue r v).regs.get r) : Int) = v % 2 ^ (32 * s.nw)) ∧
    (∀ v : Int, 0 ≤ v → v < 2 ^ (32 * s.nw) →
      (s.writeValue .k v).value .k = v ∧ (patternNat ((s.writeValue .k v).regs.get .k) : Int) = v) ∧
    ∀ (r r' : RegName) (v : Int), r' ≠ r → (s.writeValue r v).regs.get r' = s.regs.get r'

/-- 10_state.md section 1 (R13): equality of values is equality of patterns. -/
def Obligations.EqualValuesAreEqualPatterns : Prop :=
  ∀ (nw : Nat) (p q : Pattern), p.length = nw → q.length = nw → (signedValue nw p = signedValue nw q ↔ p = q)

/-- 10_state.md section 3 (R16): the layout of `STATUS`. -/
def Obligations.StatusWordLayout : Prop :=
  ∀ st : Status, st.word.getLsbD 0 = st.busy ∧ st.word.getLsbD 1 = st.done ∧ st.word.getLsbD 2 = st.err ∧
    st.word.getLsbD 3 = st.ovr ∧ st.word.extractLsb' 4 4 = st.errcode ∧ st.word.extractLsb' 8 24 = 0#24

/-! ### The bus window -/

/-- 20_memory.md sections 1 and 2 (R31, R32): the offsets of the register words, and no other place of them. -/
def Obligations.AddressMapOfTheRegisterWords : Prop :=
  ∀ (nw : Nat) (r : RegName) (j : Nat),
    (j < nw → locate nw (0x100 + r.index * (4 * nw) + 4 * j) = .data r j) ∧
    ∀ off, off % 4 = 0 → locate nw off = .data r j → j < nw ∧ off = 0x100 + r.index * (4 * nw) + 4 * j

/-- 20_memory.md section 1 (R31): the window is the smallest power of two that holds `0x100 + 9*RS` bytes. -/
def Obligations.WindowIsTheSmallestPowerOfTwo : Prop :=
  ∀ nw : Nat, (∃ k, windowSize nw = 2 ^ k) ∧ 0x100 + 9 * (4 * nw) ≤ windowSize nw ∧
    ∀ k, 0x100 + 9 * (4 * nw) ≤ 2 ^ k → windowSize nw ≤ 2 ^ k

/-- 20_memory.md section 2 (R33): what an admitted read returns; it changes nothing (the event is used up and the port answers). -/
def Obligations.BusReadReturnsTheWindowWord : Prop :=
  ∀ (s : State) (off : Nat) (rest : List Event), s.Inv → s.agenda = .host (.read off 4) :: rest →
    off % 4 = 0 → off < windowSize s.nw →
    ∃ v : Word, step s = .next { s with agenda := rest, reply := .read v false } ∧
      (off = 0x000 → v = 0#32) ∧
      (off = 0x004 → v = s.status.word) ∧
      (0x100 ≤ off → off < 0x100 + 9 * (4 * s.nw) →
        ∃ r : RegName, r.index = (off - 0x100) / (4 * s.nw) ∧
          v.toNat = patternNat (s.regs.get r) / 2 ^ (32 * ((off - 0x100) % (4 * s.nw) / 4)) % 2 ^ 32) ∧
      (off ≠ 0x000 → off ≠ 0x004 → off < 0x100 ∨ 0x100 + 9 * (4 * s.nw) ≤ off → v = 0#32)

/-- 20_memory.md R34: what an admitted write does. -/
def Obligations.BusWriteUpdatesTheWindow : Prop :=
  ∀ (s : State) (off : Nat) (v : Word) (rest : List Event), s.Inv → s.agenda = .host (.write off 4 v) :: rest →
    off % 4 = 0 → off < windowSize s.nw →
    ∃ t, step s = .next t ∧
      (off = 0x000 → s.status.busy = false →
        t = { s with
          agenda := rest, reply := .write false, op := v
          status := { busy := true, done := false, err := false, ovr := false, errcode := 0#4 } }) ∧
      (off = 0x000 → s.status.busy = true →
        t = { s with agenda := rest, reply := .write false, status := { s.status with ovr := true } }) ∧
      (0x100 ≤ off → off < 0x100 + 7 * (4 * s.nw) → s.status.busy = true →
        t = { s with agenda := rest, reply := .write false, status := { s.status with ovr := true } }) ∧
      (0x100 ≤ off → off < 0x100 + 7 * (4 * s.nw) → s.status.busy = false →
        ∃ r : RegName, r.index = (off - 0x100) / (4 * s.nw) ∧
          t = { s with agenda := rest, reply := .write false, regs := t.regs } ∧
          (∀ r', r' ≠ r → t.regs.get r' = s.regs.get r') ∧
          (t.regs.get r).length = s.nw ∧
          ∀ j, j < s.nw → (t.regs.get r).getD j 0#32 =
            if j = (off - 0x100) % (4 * s.nw) / 4 then v else (s.regs.get r).getD j 0#32) ∧
      (off ≠ 0x000 → off < 0x100 ∨ 0x100 + 7 * (4 * s.nw) ≤ off →
        t = { s with agenda := rest, reply := .write false })

/-- 20_memory.md sections 2 and 3: a word written to an idle engine's data register reads back, and every other word of
the window reads as before. -/
def Obligations.WindowReadAfterWrite : Prop :=
  ∀ (s : State) (off : Nat) (v : Word) (r : RegName) (j : Nat), s.Inv → s.status.busy = false → off % 4 = 0 →
    locate s.nw off = .data r j → r.hostWritable = true →
    (s.writeWord off v).readWord off = v ∧
      ∀ off', off' % 4 = 0 → off' ≠ off → (s.writeWord off v).readWord off' = s.readWord off'

/-- 30_encoding.md R55 (the lines `WR` and `RD`): on an idle engine `WR r, v` leaves `v` in the register `r` and every
other register as it was; `RD r` changes nothing, and the words at the addresses it reads assemble to the register's
value. -/
def Obligations.WriteAndReadLines : Prop :=
  ∀ (s : State) (r : RegName) (rest : List Event), s.Inv →
    (∀ v : Int, s.status.busy = false → r.hostWritable = true → representable s.nw r v = true →
      s.agenda = HostLine.events s.nw (.wr r v) ++ rest →
      ∃ t, Sys2Proof.core.run s.nw s = .next t ∧ t.value r = v ∧ (∀ r', r' ≠ r → t.regs.get r' = s.regs.get r') ∧
        t = { s with agenda := rest, reply := .write false, regs := t.regs }) ∧
    (s.agenda = HostLine.events s.nw (.rd r) ++ rest →
      ∃ t, Sys2Proof.core.run s.nw s = .next t ∧ t = { s with agenda := rest, reply := t.reply }) ∧
    assembleRead s.nw r ((List.range s.nw).map fun j => s.readWord (wordOffset s.nw r j)) = s.value r

/-- 20_memory.md R35: a transfer of another size, misaligned, or outside the window changes nothing, reads 0 and answers
`berr = 1`. -/
def Obligations.RefusedTransferChangesNothing : Prop :=
  ∀ (s : State) (off size : Nat) (v : Word) (rest : List Event),
    size ≠ 4 ∨ off % 4 ≠ 0 ∨ windowSize s.nw ≤ off →
    (s.agenda = .host (.read off size) :: rest →
      step s = .next { s with agenda := rest, reply := .read 0#32 true }) ∧
    (s.agenda = .host (.write off size v) :: rest → step s = .next { s with agenda := rest, reply := .write true })

/-- 10_state.md R17: a write of `CMD` is accepted iff `BUSY = 0`, with these effects and no others; else it is dropped with
`OVR`; a read of `CMD` returns 0. -/
def Obligations.CommandWriteAcceptedIffIdle : Prop :=
  ∀ (s : State) (c : Word) (rest : List Event), s.Inv →
    (s.agenda = .host (.write 0x000 4 c) :: rest →
      (s.status.busy = false →
        step s = .next { s with
          agenda := rest, reply := .write false, op := c
          status := { busy := true, done := false, err := false, ovr := false, errcode := 0#4 } }) ∧
      (s.status.busy = true →
        step s = .next
          { s with agenda := rest, reply := .write false, status := { s.status with ovr := true } })) ∧
    (s.agenda = .host (.read 0x000 4) :: rest →
      step s = .next { s with agenda := rest, reply := .read 0#32 false })

/-- 70_reset_and_hazards.md section 3 (R135): every host write to `CMD` or to a writable data register of a busy engine is
dropped and sets `OVR`. -/
def Obligations.BusyEngineDropsHostWrites : Prop :=
  ∀ (s : State) (e : Event) (rest : List Event), s.status.busy = true → s.agenda = e :: rest →
    e.writesEngine s.nw = true →
    step s = .next { s with agenda := rest, reply := .write false, status := { s.status with ovr := true } }

/-- 10_state.md section 3 (R16): `OVR` becomes 1 only by such a dropped write. -/
def Obligations.OverrunOnlyFromADroppedWrite : Prop :=
  ∀ s t : State, step s = .next t → s.status.ovr = false → t.status.ovr = true →
    s.status.busy = true ∧ ∃ e rest, s.agenda = e :: rest ∧ e.writesEngine s.nw = true

/-! ### The field layer -/

/-- 40_field_pipeline.md section 1 (R61): the truncated remainder. That it takes the sign of the dividend is what the spec
marks as general knowledge (log entry 9, PRESUMED); the last clause says that the choice cannot be observed. -/
def Obligations.TruncatedRemainderLaws : Prop :=
  (∀ v m : Int, 1 ≤ m →
    remT v m = v.sign * (|v| - m * (|v| / m)) ∧ (remT v m = 0 ∨ (remT v m).sign = v.sign) ∧ |remT v m| < m) ∧
  (∀ v m r : Int, 2 ≤ m → |r| < m → r ≡ v [ZMOD m] → (if r < 0 then r + m else r) = red v m) ∧
  remT 100 17 = 15 ∧ remT (-100) 17 = -15 ∧ remT (-1) 17 = -1 ∧ remT (-17) 17 = 0

/-- 40_field_pipeline.md section 1 (R62): the two stages, the least non-negative residue (an inference the spec marks as its
own), the corner cases, and that every computed coordinate is canonical. -/
def Obligations.ReductionIsTheLeastResidue : Prop :=
  ∀ v p : Int, 2 ≤ p →
    red v p = (if remT v p < 0 then remT v p + p else remT v p) ∧
    (0 ≤ red v p ∧ red v p < p ∧ red v p ≡ v [ZMOD p]) ∧
    (∀ r : Int, 0 ≤ r → r < p → r ≡ v [ZMOD p] → r = red v p) ∧
    red 0 p = 0 ∧ red p p = 0 ∧ red (-p) p = 0 ∧ red (-1) p = p - 1 ∧ (0 ≤ v → v < p → red v p = v) ∧
    (∀ (P Q : Point) (lam : Int), (pointOnLine P Q lam p).Canonical p) ∧
    ∀ (P R : Point) (k : Nat) (a : Int), multiplyPoint P k a p = .ok R → R.Canonical p

/-- 40_field_pipeline.md R63: the two undefined conditions, the unique canonical inverse, and that with a prime modulus
the second condition does not occur. -/
def Obligations.InverseIsTheUniqueInverse : Prop :=
  ∀ v p : Int, 2 ≤ p →
    (red v p = 0 → inv v p = .error .undefinedInverse) ∧
    (red v p ≠ 0 → Int.gcd (red v p) p ≠ 1 → inv v p = .error .nonInvertible) ∧
    (red v p ≠ 0 → Int.gcd (red v p) p = 1 →
      ∃ u, inv v p = .ok u ∧ (1 ≤ u ∧ u < p) ∧ u * red v p ≡ 1 [ZMOD p] ∧
        ∀ w : Int, 1 ≤ w → w < p → w * red v p ≡ 1 [ZMOD p] → w = u) ∧
    (Nat.Prime p.toNat → red v p ≠ 0 → Int.gcd (red v p) p = 1)

/-! ### The commands -/

/-- 40_field_pipeline.md R65. -/
def Obligations.FredReducesX1 : Prop :=
  encode .fred = 0x00000001#32 ∧
  ∀ s : State, s.Inv →
    (s.value .rp < 2 → TrapsWith .fred s .invalidModulus) ∧
    (2 ≤ s.value .rp →
      CompletesWithX .fred s fun r => 0 ≤ r ∧ r < s.value .rp ∧ r ≡ s.value .x1 [ZMOD s.value .rp])

/-- 40_field_pipeline.md R66. -/
def Obligations.FinvInvertsX1 : Prop :=
  encode .finv = 0x00000002#32 ∧
  ∀ s : State, s.Inv →
    (s.value .rp < 2 → TrapsWith .finv s .invalidModulus) ∧
    (2 ≤ s.value .rp →
      (s.value .rp ∣ s.value .x1 → TrapsWith .finv s .undefinedInverse) ∧
      (¬s.value .rp ∣ s.value .x1 → Int.gcd (s.value .x1) (s.value .rp) ≠ 1 → TrapsWith .finv s .nonInvertible) ∧
      (Int.gcd (s.value .x1) (s.value .rp) = 1 →
        CompletesWithX .finv s fun r => 1 ≤ r ∧ r < s.value .rp ∧ r * s.value .x1 ≡ 1 [ZMOD s.value .rp]))

/-- 41_point_add_double.md R72, with the case order of R70 and the formulas of R71. -/
def Obligations.PaddAddsTheOperands : Prop :=
  encode .padd = 0x00000010#32 ∧
  ∀ (s : State) (P Q : Point) (p a num den : Int), s.Inv → P = s.point1 → Q = s.point2 →
    p = s.value .rp → a = s.value .ra →
    num = (if P = Q then 3 * P.x * P.x + a else Q.y - P.y) → den = (if P = Q then 2 * P.y else Q.x - P.x) →
    (p < 2 → TrapsWith .padd s .invalidModulus) ∧
    (2 ≤ p →
      (P = ⟨0, 0⟩ → CompletesWith .padd s (· = Q)) ∧
      (P ≠ ⟨0, 0⟩ → Q = ⟨0, 0⟩ → CompletesWith .padd s (· = P)) ∧
      (P ≠ ⟨0, 0⟩ → Q ≠ ⟨0, 0⟩ → p ∣ den → CompletesWith .padd s (· = ⟨0, 0⟩)) ∧
      (P ≠ ⟨0, 0⟩ → Q ≠ ⟨0, 0⟩ → ¬p ∣ den → Int.gcd den p ≠ 1 → TrapsWith .padd s .nonInvertible) ∧
      (P ≠ ⟨0, 0⟩ → Q ≠ ⟨0, 0⟩ → Int.gcd den p = 1 → CompletesWith .padd s (OnSlope p num den P Q)))

/-- 41_point_add_double.md section 2 (R73). -/
def Obligations.PdblDoublesOperandOne : Prop :=
  encode .pdbl = 0x00000011#32 ∧
  ∀ (s : State) (P : Point) (p a : Int), s.Inv → P = s.point1 → p = s.value .rp → a = s.value .ra →
    (p < 2 → TrapsWith .pdbl s .invalidModulus) ∧
    (2 ≤ p →
      (P = ⟨0, 0⟩ → CompletesWith .pdbl s (· = ⟨0, 0⟩)) ∧
      (P ≠ ⟨0, 0⟩ → p ∣ 2 * P.y → CompletesWith .pdbl s (· = ⟨0, 0⟩)) ∧
      (P ≠ ⟨0, 0⟩ → ¬p ∣ 2 * P.y → Int.gcd (2 * P.y) p ≠ 1 → TrapsWith .pdbl s .nonInvertible) ∧
      (P ≠ ⟨0, 0⟩ → Int.gcd (2 * P.y) p = 1 →
        CompletesWith .pdbl s (OnSlope p (3 * P.x * P.x + a) (2 * P.y) P P)))

/-- 41_point_add_double.md section 2: PDBL is PADD with the same value in both operand pairs. -/
def Obligations.PdblIsPaddOfEqualOperands : Prop :=
  ∀ s : State, s.point1 = s.point2 → exec .pdbl s = exec .padd s

/-- 42_scalar_mul.md section 2 (R81): PMUL commits what `multiplyPoint` of its operands answers, in canonical form, or raises
NonInvertible; with a prime modulus it never raises. -/
def Obligations.PmulMultipliesOperandOne : Prop :=
  encode .pmul = 0x00000012#32 ∧
  ∀ s : State, s.Inv → s.LoopOnTrack →
    (s.value .rp < 2 → TrapsWith .pmul s .invalidModulus) ∧
    (2 ≤ s.value .rp →
      (∀ R, multiplyPoint s.point1 s.scalar (s.value .ra) (s.value .rp) = .ok R →
        CompletesWith .pmul s fun q => q = R ∧ q.Canonical (s.value .rp)) ∧
      (∀ e, multiplyPoint s.point1 s.scalar (s.value .ra) (s.value .rp) = .error e →
        TrapsWith .pmul s .nonInvertible) ∧
      (Nat.Prime (s.value .rp).toNat →
        CompletesWith .pmul s fun q =>
          multiplyPoint s.point1 s.scalar (s.value .ra) (s.value .rp) = .ok q))

/-- 42_scalar_mul.md R80: `multiplyPoint` is double-and-add over the binary digits of the scalar, the least significant
first, `bitlen(k)` of them, and a full reduction of each coordinate. -/
def Obligations.MultiplyPointIsDoubleAndAdd : Prop :=
  ∀ (P : Point) (k : Nat) (a p : Int),
    k.bits.length = bitlen k ∧
    multiplyPoint P k a p =
      match doubleAndAdd a p k.bits ⟨0, 0⟩ P with
      | .error e => .error e
      | .ok T => .ok ⟨red T.x p, red T.y p⟩

/-- 60_exceptions.md R113: every legal command raises InvalidModulus iff `x[RP] < 2`. -/
def Obligations.SmallModulusIsInvalid : Prop :=
  ∀ (i : Instr) (s : State),
    (s.value .rp < 2 → TrapsWith i s .invalidModulus) ∧
    (2 ≤ s.value .rp → s.status.errcode = 0#4 → ∃ t, exec i s = .next t ∧ t.status.errcode ≠ 2#4)

/-- 60_exceptions.md section 1 (R114): NonInvertible cannot occur when the modulus is prime. -/
def Obligations.PrimeModulusRaisesNoNonInvertible : Prop :=
  ∀ (i : Instr) (s : State), Nat.Prime (s.value .rp).toNat → s.status.errcode = 0#4 →
    ∃ t, exec i s = .next t ∧ t.status.errcode ≠ 4#4

/-- 10_state.md section 3 (R19): a command that ends with an error changes `STATUS` as said and no register, width, latch or
port answer. That the dead hidden loop is also cleared is the model's choice (log entry 5). -/
def Obligations.ErrorLeavesNoPartialEffect : Prop :=
  ∀ s t : State, s.status.busy = true → s.status.err = false → step s = .next t → t.status.err = true →
    (∃ e : CmdError, t.status = { s.status with busy := false, done := true, err := true, errcode := e.code }) ∧
      t = { s with agenda := s.agenda.tail, status := t.status, loop := PmulLoop.idle }

/-- 10_state.md section 3 (R18): a step by which a busy engine completes without error is `exec` of the decoded command, so
that `XR` and `YR` hold what that command's rule gives; it sets `BUSY` and `DONE`, `ERR` and `ERRCODE` are 0, FRED and FINV
leave `YR`, and no other register changes. -/
def Obligations.CompletionWritesTheResult : Prop :=
  ∀ s t : State, s.Inv → s.status.busy = true → (∀ rest, s.agenda ≠ .reset :: rest) → step s = .next t →
    t.status.busy = false → t.status.err = false →
    (∃ i, decode s.op = .ok i ∧ exec i { s with agenda := s.agenda.tail } = .next t) ∧
    t.status = { s.status with busy := false, done := true, err := false, errcode := 0#4 } ∧
    (∀ r, r ≠ .xr → r ≠ .yr → t.regs.get r = s.regs.get r) ∧
    (decode s.op = .ok .fred ∨ decode s.op = .ok .finv → t.regs.yr = s.regs.yr ∧ Canonical (s.value .rp) (t.value .xr))

/-! ### Whole-machine rules -/

/-- 10_state.md R23: reset zeroes every bit of the engine's state; operands and result read as `O`; every command ends with
InvalidModulus while the modulus is below 2, which it is after reset and stays until the host writes a word of `RP`. -/
def Obligations.ResetZeroesTheEngine : Prop :=
  State.reset.AllZero ∧
  (∀ (s : State) (rest : List Event), s.agenda = .reset :: rest →
    ∃ t, step s = .next t ∧ t.AllZero ∧ t.point1 = ⟨0, 0⟩ ∧ t.point2 = ⟨0, 0⟩ ∧ t.result = ⟨0, 0⟩ ∧
      ∀ i, TrapsWith i t .invalidModulus) ∧
  (∀ (s : State) (i : Instr), s.value .rp < 2 → TrapsWith i s .invalidModulus) ∧
  ∀ s t : State, step s = .next t → s.value .rp < 2 → 2 ≤ t.value .rp →
    s.status.busy = false ∧ ∃ off v rest j, s.agenda = .host (.write off 4 v) :: rest ∧ locate s.nw off = .data .rp j

/-- 70_reset_and_hazards.md section 1 (R131, which the spec marks as derived): the first `CMD` write after reset is accepted; a legal command completes with
InvalidModulus, an illegal one with IllegalCommand, and no data register changes. -/
def Obligations.FirstCommandAfterReset : Prop :=
  ∀ (nw : Nat) (c : Word) (rest : List Event),
    (State.resetOf nw).status.busy = false ∧
    ∃ t u,
      step { State.resetOf nw with agenda := .host (.write 0x000 4 c) :: .complete :: rest } = .next t ∧
      t.status.busy = true ∧ t.op = c ∧ step t = .next u ∧ u.regs = (State.resetOf nw).regs ∧
      (∀ i, decode c = .ok i →
        u.status = { busy := false, done := true, err := true, ovr := false, errcode := 2#4 }) ∧
      (∀ e, decode c = .error e →
        u.status = { busy := false, done := true, err := true, ovr := false, errcode := 1#4 })

/-- The invariants hold after reset, for every legal register width (10_state.md sections 3 to 6). -/
def Obligations.ResetMeetsTheInvariants : Prop :=
  State.reset.Inv ∧ State.reset.LoopOnTrack ∧
    ∀ nw, 1 ≤ nw → (State.resetOf nw).Inv ∧ (State.resetOf nw).LoopOnTrack

/-- 10_state.md section 3 (the invariants of R16) and section 4: every step keeps the invariant. -/
def Obligations.StepKeepsTheInvariant : Prop :=
  ∀ s t : State, s.Inv → step s = .next t → t.Inv

/-- 10_state.md section 4, 42_scalar_mul.md section 1: every step keeps a live loop where some number of iterations on the
operands has brought it. -/
def Obligations.StepKeepsTheLoopOnTrack : Prop :=
  ∀ s t : State, s.Inv → s.LoopOnTrack → step s = .next t → t.LoopOnTrack

/-- 10_state.md R12: no command changes an operand or parameter register; only the host does, while `BUSY = 0` (and
reset, R130). -/
def Obligations.OperandsChangeOnlyByIdleHostWrites : Prop :=
  (∀ (i : Instr) (s t : State) (r : RegName), exec i s = .next t → r.hostWritable = true →
    t.regs.get r = s.regs.get r) ∧
  ∀ (s t : State) (r : RegName), step s = .next t → r.hostWritable = true → t.regs.get r ≠ s.regs.get r →
    (∃ rest, s.agenda = .reset :: rest) ∨
    (s.status.busy = false ∧ ∃ off v rest j, s.agenda = .host (.write off 4 v) :: rest ∧
      locate s.nw off = .data r j ∧ t.regs.get r = (s.regs.get r).set j v)

/-- 70_reset_and_hazards.md section 3 (R136), 20_memory.md section 2: `XR` and `YR` change only at a completion without
error (or at reset). -/
def Obligations.ResultsChangeOnlyAtCompletion : Prop :=
  ∀ (s t : State) (r : RegName), step s = .next t → r = .xr ∨ r = .yr → t.regs.get r ≠ s.regs.get r →
    (∃ rest, s.agenda = .reset :: rest) ∨
    (s.status.busy = true ∧ (s.agenda = [] ∨ ∃ rest, s.agenda = .complete :: rest) ∧
      CompletedOk s t)

/-- 60_exceptions.md section 2 (R118): in an idle engine `DONE`, `ERR` and `ERRCODE` stay as they are until the next command is
accepted, which clears them (or reset); reading clears nothing. -/
def Obligations.ErrorStaysUntilTheNextCommand : Prop :=
  ∀ s t : State, s.status.busy = false → step s = .next t → (∀ rest, s.agenda ≠ .reset :: rest) →
    (t.status = s.status ∨
      ((∃ off c rest, s.agenda = .host (.write off 4 c) :: rest ∧ locate s.nw off = .cmd ∧ t.op = c) ∧
        t.status = { busy := true, done := false, err := false, ovr := false, errcode := 0#4 }))

/-- 70_reset_and_hazards.md section 5 (R144): a run never hangs; every step has a next state. -/
def Obligations.StepAlwaysHasANextState : Prop :=
  ∀ s : State, ∃ t, step s = .next t

/-- 70_reset_and_hazards.md section 4 (R142): a command in progress completes, with `DONE` set, within one step more than
there are events to come, unless one of these is a reset; and whatever is to come, no command is in progress after that many
steps. That the completion comes when nothing else is to come is the model's choice (log entry 3). -/
def Obligations.EveryAcceptedCommandCompletes : Prop :=
  ∀ s : State,
    (s.status.busy = true → Event.reset ∉ s.agenda →
      ∃ n u v, n ≤ s.agenda.length ∧ Sys2Proof.core.run n s = .next u ∧ u.status.busy = true ∧ u.op = s.op ∧
        step u = .next v ∧ v.op = s.op ∧ v.status.busy = false ∧ v.status.done = true) ∧
    ∃ t, Sys2Proof.core.run (s.agenda.length + 1) s = .next t ∧ t.status.busy = false

/-- A step runs the decoded command: when the engine's completion is next, step is exec of the decoded command on the
state with that event used up (10_state.md section 3); with nothing on the agenda it is next by the model's choice (log
entry 3). -/
def Obligations.StepRunsTheDecodedCommand : Prop :=
  ∀ (s : State) (i : Instr), s.status.busy = true → decode s.op = .ok i →
    (s.agenda = [] → step s = exec i s) ∧
    ∀ rest, s.agenda = .complete :: rest → step s = exec i { s with agenda := rest }

/-- 70_reset_and_hazards.md section 5: from the host's `CMD` write to the end of the run. The clearing of the hidden loop at
acceptance is the model's (log entry 5). -/
def Obligations.RunFromCommandWriteToCompletion : Prop :=
  ∀ (s : State) (i : Instr) (rest : List Event), s.status.busy = false →
    s.agenda = .host (.write 0x000 4 (encode i)) :: .complete :: rest →
    Sys2Proof.core.run 2 s = exec i { s with
      agenda := rest, reply := .write false, op := encode i, loop := PmulLoop.idle
      status := { busy := true, done := false, err := false, ovr := false, errcode := 0#4 } }

/-- 70_reset_and_hazards.md section 3 (R140): however the engine's work and the host's reads fall before the completion,
the command ends as if it had completed at once; only the port's last answer may differ. What a `work` event does is the
model's choice (log entry 4). -/
def Obligations.ScheduleIsUnobservable : Prop :=
  ∀ (s : State) (es rest : List Event), s.status.busy = true → (∀ e ∈ es, e.isPassive = true) →
    ∃ t u, Sys2Proof.core.run (es.length + 1) { s with agenda := es ++ .complete :: rest } = .next t ∧
      step { s with agenda := .complete :: rest } = .next u ∧ { t with reply := u.reply } = u

/-! ### Laws of the point functions -/

/-- 41_point_add_double.md R70, R71: the case order, the two slopes, and what becomes of the denominator. -/
def Obligations.AddPointCases : Prop :=
  ∀ (P Q : Point) (a p num den : Int), 2 ≤ p →
    (P = ⟨0, 0⟩ → addPoint P Q a p = .ok Q) ∧
    (P ≠ ⟨0, 0⟩ → Q = ⟨0, 0⟩ → addPoint P Q a p = .ok P) ∧
    (P ≠ ⟨0, 0⟩ → Q ≠ ⟨0, 0⟩ →
      (P = Q → num = 3 * P.x * P.x + a ∧ den = 2 * P.y) → (P ≠ Q → num = Q.y - P.y ∧ den = Q.x - P.x) →
      (p ∣ den → addPoint P Q a p = .ok ⟨0, 0⟩) ∧
      (¬p ∣ den → Int.gcd den p ≠ 1 → addPoint P Q a p = .error .nonInvertible) ∧
      (Int.gcd den p = 1 → ∃ R, addPoint P Q a p = .ok R ∧ OnSlope p num den P Q R))

/-- 41_point_add_double.md section 3 (the inverse property of R74), also with the raw negative of R72's corner cases. -/
def Obligations.AddPointOfInversePairsIsIdentity : Prop :=
  ∀ (P : Point) (a p : Int), 2 ≤ p → P.Canonical p → P.y ≠ 0 →
    addPoint P ⟨P.x, p - P.y⟩ a p = .ok ⟨0, 0⟩ ∧ addPoint P ⟨P.x, -P.y⟩ a p = .ok ⟨0, 0⟩

/-- 41_point_add_double.md section 3 (the symmetry of R74). -/
def Obligations.AddPointIsSymmetric : Prop :=
  ∀ (P Q : Point) (a p : Int), 2 ≤ p → addPoint P Q a p = addPoint Q P a p

/-- 40_field_pipeline.md section 1 (R64): computed results depend on the operands through their residues. -/
def Obligations.ResultsDependOnResidues : Prop :=
  ∀ p : Int, 2 ≤ p →
    (∀ v w : Int, v ≡ w [ZMOD p] → red v p = red w p ∧ inv v p = inv w p) ∧
    ∀ (P P' Q Q' : Point) (a a' : Int), P ≠ ⟨0, 0⟩ → P' ≠ ⟨0, 0⟩ → Q ≠ ⟨0, 0⟩ → Q' ≠ ⟨0, 0⟩ →
      P.x ≡ P'.x [ZMOD p] → P.y ≡ P'.y [ZMOD p] → Q.x ≡ Q'.x [ZMOD p] → Q.y ≡ Q'.y [ZMOD p] → a ≡ a' [ZMOD p] →
      (P = Q ↔ P' = Q') → addPoint P Q a p = addPoint P' Q' a' p

/-- 41_point_add_double.md section 3 (R76): the limits of structural comparison and of the sentinel, row by row. -/
def Obligations.StructuralComparisonLimits : Prop :=
  ∀ p : Int, 2 ≤ p →
    (∀ (P Q : Point) (a : Int), P.x ≡ Q.x [ZMOD p] → P.y ≡ Q.y [ZMOD p] → P ≠ Q → P ≠ ⟨0, 0⟩ → Q ≠ ⟨0, 0⟩ →
      addPoint P Q a p = .ok ⟨0, 0⟩) ∧
    (∀ (P Q : Point) (a : Int), P.x ≡ 0 [ZMOD p] → P.y ≡ 0 [ZMOD p] → P ≠ ⟨0, 0⟩ → Q ≠ ⟨0, 0⟩ →
      (P = Q → addPoint P Q a p = .ok ⟨0, 0⟩) ∧
      (P ≠ Q → p ∣ Q.x - P.x → addPoint P Q a p = .ok ⟨0, 0⟩) ∧
      (P ≠ Q → Int.gcd (Q.x - P.x) p = 1 →
        ∃ R, addPoint P Q a p = .ok R ∧ OnSlope p (Q.y - P.y) (Q.x - P.x) P Q R)) ∧
    (∀ (P Q R : Point) (a : Int), addPoint P Q a p = .ok ⟨0, 0⟩ →
      ∀ S, addPoint P Q a p = .ok S → addPoint S R a p = .ok R ∧ addPoint R S a p = .ok R) ∧
    (∀ (S C : Point) (a : Int), S.Canonical p → C.Canonical p → 0 < S.y → C.x ≡ S.x [ZMOD p] →
      C.y ≡ -S.y [ZMOD p] → addPoint C (negateRaw S) a p = .ok ⟨0, 0⟩)

/-- 41_point_add_double.md section 3 (the group law of R74): for a prime modulus, `addPoint` of the representations of two
points of the curve is the representation of their sum in Mathlib's group, as long as neither operand is the affine point
`(0, 0)`. -/
def Obligations.AddPointIsGroupAddition : Prop :=
  ∀ (p : Nat) [Fact p.Prime] (a b : Int) (A B : (shortCurve p a b).Point),
    (pointOf A = ⟨0, 0⟩ → A = 0) → (pointOf B = ⟨0, 0⟩ → B = 0) →
    addPoint (pointOf A) (pointOf B) a p = .ok (pointOf (A + B))

/-- 42_scalar_mul.md section 3: for a prime modulus and `b ≢ 0`, `multiplyPoint` computes the scalar multiple in the
curve's group. -/
def Obligations.MultiplyPointIsScalarMultiple : Prop :=
  ∀ (p : Nat) [Fact p.Prime] (a b : Int), ¬(p : Int) ∣ b → ∀ (A : (shortCurve p a b).Point) (k : Nat),
    multiplyPoint (pointOf A) k a p = .ok (pointOf (k • A))

/-- 42_scalar_mul.md section 3 (R82): the four properties, for representations of points of a curve where the group law holds; the
last one for every point. -/
def Obligations.ScalarMultiplicationLaws : Prop :=
  (∀ (p : Nat) [Fact p.Prime] (a b : Int), ¬(p : Int) ∣ b → ∀ A : (shortCurve p a b).Point,
    multiplyPoint (pointOf A) 2 a p = addPoint (pointOf A) (pointOf A) a p ∧
    (∀ m n : Nat, ∃ Rm Rn R, multiplyPoint (pointOf A) m a p = .ok Rm ∧ multiplyPoint (pointOf A) n a p = .ok Rn ∧
      addPoint Rm Rn a p = .ok R ∧ multiplyPoint (pointOf A) (m + n) a p = .ok R) ∧
    (∀ k n : Nat, ∃ Rk Rn R, multiplyPoint (pointOf A) k a p = .ok Rk ∧ multiplyPoint (pointOf A) n a p = .ok Rn ∧
      multiplyPoint Rk n a p = .ok R ∧ multiplyPoint Rn k a p = .ok R)) ∧
  ∀ (P : Point) (k : Nat) (a p : Int), 2 ≤ p →
    multiplyPoint P 0 a p = .ok ⟨0, 0⟩ ∧ multiplyPoint ⟨0, 0⟩ k a p = .ok ⟨0, 0⟩

/-! ### The engine under its host's software -/

/-- 43_host_software_context.md section 3 (R96): adding `S` by the chord case and then the raw `-S` gives a canonical
message point back, on the curve or not. -/
def Obligations.ChordRoundTrip : Prop :=
  ∀ (p : Nat) (a : Int) (M S C : Point), p.Prime → M.Canonical p → M ≠ ⟨0, 0⟩ → S ≠ ⟨0, 0⟩ →
    ¬M.x ≡ S.x [ZMOD p] → addPoint M S a p = .ok C → C ≠ ⟨0, 0⟩ → ¬C.x ≡ S.x [ZMOD p] →
    addPoint C (negateRaw S) a p = .ok M

/-- 43_host_software_context.md section 4 (R97, R99, R100, R101): a session decrypts what it encrypted, whichever form of
`-S` it loads, for message points that avoid the special cases of R96. -/
def Obligations.SessionRoundTrip : Prop :=
  ∀ (p : Nat) [Fact p.Prime] (a b : Int), ¬(p : Int) ∣ b → ∀ (G : (shortCurve p a b).Point) (n k : Nat)
    (form : NegationForm) (Pa S kG : Point) (ms cs : List Point),
    sessionPublic a p (pointOf G) n = .ok Pa → multiplyPoint Pa k a p = .ok S → S ≠ ⟨0, 0⟩ →
    sessionEncrypt a p (pointOf G) Pa k ms = .ok (kG, cs) →
    (∀ m ∈ ms, m.Canonical p ∧ m ≠ ⟨0, 0⟩ ∧ ¬m.x ≡ S.x [ZMOD p]) →
    (∀ c ∈ cs, c ≠ ⟨0, 0⟩ ∧ ¬c.x ≡ S.x [ZMOD p]) →
    sessionDecrypt form a p n kG cs = .ok ms

/-- 43_host_software_context.md section 3 (R95): for every sequence of even length, pairing into points and flattening
gives the sequence back. -/
def Obligations.PointCodecRoundTrip : Prop :=
  ∀ vs : List Nat, vs.length % 2 = 0 → breakPoints (generatePoints vs) = vs.map (Nat.cast : Nat → Int)

/-- 43_host_software_context.md section 2 (R91, R92, R93), in the reading of log entry 14: without an appended final
quotient `toDigits` gives the bytes back, and the sentinel if the number of chunks is odd, when no chunk begins with a zero
byte. -/
def Obligations.DigitCodecRoundTrip : Prop :=
  ∀ (bytes : List (BitVec 8)) (g : Nat), 1 ≤ g →
    (∀ c ∈ chunksOf g bytes.length bytes, ∀ b, c.head? = some b → b ≠ 0#8) →
    toDigits false (fromDigits bytes g) =
      bytes.map BitVec.toNat ++ if (chunksOf g bytes.length bytes).length % 2 = 1 then [32] else []

/-- 43_host_software_context.md section 4 (R101): the two forms of `-S`, for a canonical `S`. Both are `O` for `S = O`; they
are congruent and the canonical one is canonical; they give the same outcome for every ciphertext point other than `O` that
is equal to neither; and for the canonical `C ≡ -S` the raw form gives `O` and the canonical one the double. -/
def Obligations.NegationFormsOfDecrypt : Prop :=
  ∀ (p a : Int) (S : Point), 2 ≤ p → S.Canonical p →
    (S = ⟨0, 0⟩ → ∀ form, negateAs form p S = ⟨0, 0⟩) ∧
    (negateAs .canonical p S).Canonical p ∧
    (∀ form, (negateAs form p S).x = S.x ∧ (negateAs form p S).y ≡ -S.y [ZMOD p]) ∧
    (∀ C : Point, C ≠ ⟨0, 0⟩ → C ≠ negateAs .raw p S → C ≠ negateAs .canonical p S →
      addPoint C (negateAs .raw p S) a p = addPoint C (negateAs .canonical p S) a p) ∧
    (∀ C : Point, 0 < S.y → C.Canonical p → C.x ≡ S.x [ZMOD p] → C.y ≡ -S.y [ZMOD p] →
      C = negateAs .canonical p S ∧ addPoint C (negateAs .raw p S) a p = .ok ⟨0, 0⟩ ∧
      addPoint C (negateAs .canonical p S) a p = addPoint C C a p ∧
      (Int.gcd (2 * C.y) p = 1 →
        ∃ R, addPoint C (negateAs .canonical p S) a p = .ok R ∧
          OnSlope p (3 * C.x * C.x + a) (2 * C.y) C C R))

/-- 43_host_software_context.md section 1 (R90), with R91 to R105: the whole data flow. A session gives the byte buffer it
encrypted back, followed by the padding, for message points that avoid the special cases of R96; an empty buffer is an
EncodingMismatch. The reading of `toDigits` and what counts as a mismatch are those of log entries 14 and 16.
That the round trip is also claimed for a chunk of the single byte 0 is the model's choice, against the advice of
93_implementation_defined.md U4; log entry 16. -/
def Obligations.BufferRoundTrip : Prop :=
  (∀ (p : Nat) [Fact p.Prime] (a b : Int), ¬(p : Int) ∣ b → ∀ (G : (shortCurve p a b).Point) (n k : Nat)
    (skipZeros : Bool) (form : NegationForm) (u : Session) (S kG : Point) (bytes : List (BitVec 8)) (cs : List Point),
    constructSession skipZeros a b p n (pointOf G) = .ok u → multiplyPoint u.pa k a p = .ok S → S ≠ ⟨0, 0⟩ →
    u.encryptBuffer k bytes = .ok (kG, cs) →
    (∀ m ∈ generatePoints (fromDigits bytes u.group), m.Canonical p ∧ m ≠ ⟨0, 0⟩ ∧ ¬m.x ≡ S.x [ZMOD p]) →
    (∀ c ∈ cs, c ≠ ⟨0, 0⟩ ∧ ¬c.x ≡ S.x [ZMOD p]) →
    u.decryptBuffer form false kG cs = .ok (bytes ++ paddingOf bytes u.group)) ∧
  ∀ (u : Session) (k : Nat), u.encryptBuffer k [] = .error .encodingMismatch
end

