-- ==== Sys2Proof/Laws/State.lean ====
section
/-! SUPPORT. What each named update of the state changes, field by field. -/

namespace Sys2Proof.Machine

variable (s : State) (v : Int) (q : Point) (e : CmdError) (c : Word) (r n : RegName) (p : Pattern)

/-! ### One register at a time -/

@[simp] theorem Regs.get_set_self (g : Regs) : (g.set r p).get r = p := by cases r <;> rfl

theorem Regs.get_set_ne (g : Regs) (h : n ≠ r) : (g.set r p).get n = g.get n := by
  cases r <;> cases n <;> first | rfl | exact absurd rfl h

theorem Regs.ext_get {g g' : Regs} (h : ∀ n, g.get n = g'.get n) : g = g' := by
  cases g; cases g'
  have := h .rp; have := h .ra; have := h .x1; have := h .y1; have := h .x2; have := h .y2
  have := h .k; have := h .xr; have := h .yr
  simp_all [Regs.get]

theorem Regs.set_get_self (g : Regs) : g.set r (g.get r) = g := by cases r <;> rfl

@[simp] theorem Regs.get_zero (nw : Nat) : (Regs.zero nw).get r = List.replicate nw 0#32 := by
  cases r <;> rfl

/-! ### `writeValue` -/

@[simp] theorem State.writeValue_nw : (s.writeValue r v).nw = s.nw := rfl
@[simp] theorem State.writeValue_status : (s.writeValue r v).status = s.status := rfl
@[simp] theorem State.writeValue_op : (s.writeValue r v).op = s.op := rfl
@[simp] theorem State.writeValue_loop : (s.writeValue r v).loop = s.loop := rfl
@[simp] theorem State.writeValue_reply : (s.writeValue r v).reply = s.reply := rfl
@[simp] theorem State.writeValue_agenda : (s.writeValue r v).agenda = s.agenda := rfl
@[simp] theorem State.writeValue_get_self : (s.writeValue r v).regs.get r = tcPattern s.nw v :=
  Regs.get_set_self ..
theorem State.writeValue_get_ne (h : n ≠ r) : (s.writeValue r v).regs.get n = s.regs.get n :=
  Regs.get_set_ne _ _ _ _ h

/-! ### `accept` -/

@[simp] theorem State.accept_nw : (s.accept c).nw = s.nw := rfl
@[simp] theorem State.accept_regs : (s.accept c).regs = s.regs := rfl
@[simp] theorem State.accept_status : (s.accept c).status =
    { busy := true, done := false, err := false, ovr := false, errcode := 0#4 } := rfl
@[simp] theorem State.accept_op : (s.accept c).op = c := rfl
@[simp] theorem State.accept_loop : (s.accept c).loop = PmulLoop.idle := rfl
@[simp] theorem State.accept_reply : (s.accept c).reply = s.reply := rfl
@[simp] theorem State.accept_agenda : (s.accept c).agenda = s.agenda := rfl

/-! ### `completeOk` -/

@[simp] theorem State.completeOk_nw : s.completeOk.nw = s.nw := rfl
@[simp] theorem State.completeOk_regs : s.completeOk.regs = s.regs := rfl
@[simp] theorem State.completeOk_status :
    s.completeOk.status = { s.status with busy := false, done := true } := rfl
@[simp] theorem State.completeOk_op : s.completeOk.op = s.op := rfl
@[simp] theorem State.completeOk_loop : s.completeOk.loop = PmulLoop.idle := rfl
@[simp] theorem State.completeOk_reply : s.completeOk.reply = s.reply := rfl
@[simp] theorem State.completeOk_agenda : s.completeOk.agenda = s.agenda := rfl

/-! ### `commitX` and `commitPoint` -/

@[simp] theorem State.commitX_nw : (s.commitX v).nw = s.nw := rfl
@[simp] theorem State.commitX_regs : (s.commitX v).regs = s.regs.set .xr (tcPattern s.nw v) := rfl
@[simp] theorem State.commitX_status :
    (s.commitX v).status = { s.status with busy := false, done := true } := rfl
@[simp] theorem State.commitX_op : (s.commitX v).op = s.op := rfl
@[simp] theorem State.commitX_loop : (s.commitX v).loop = PmulLoop.idle := rfl
@[simp] theorem State.commitX_reply : (s.commitX v).reply = s.reply := rfl
@[simp] theorem State.commitX_agenda : (s.commitX v).agenda = s.agenda := rfl

@[simp] theorem State.commitPoint_nw : (s.commitPoint q).nw = s.nw := rfl
@[simp] theorem State.commitPoint_regs : (s.commitPoint q).regs =
    (s.regs.set .xr (tcPattern s.nw q.x)).set .yr (tcPattern s.nw q.y) := rfl
@[simp] theorem State.commitPoint_status :
    (s.commitPoint q).status = { s.status with busy := false, done := true } := rfl
@[simp] theorem State.commitPoint_op : (s.commitPoint q).op = s.op := rfl
@[simp] theorem State.commitPoint_loop : (s.commitPoint q).loop = PmulLoop.idle := rfl
@[simp] theorem State.commitPoint_reply : (s.commitPoint q).reply = s.reply := rfl
@[simp] theorem State.commitPoint_agenda : (s.commitPoint q).agenda = s.agenda := rfl

/-! ### `raise` and `dropWrite` -/

@[simp] theorem State.raise_nw : (s.raise e).nw = s.nw := rfl
@[simp] theorem State.raise_regs : (s.raise e).regs = s.regs := rfl
@[simp] theorem State.raise_status : (s.raise e).status =
    { s.status with busy := false, done := true, err := true, errcode := e.code } := rfl
@[simp] theorem State.raise_op : (s.raise e).op = s.op := rfl
@[simp] theorem State.raise_loop : (s.raise e).loop = PmulLoop.idle := rfl
@[simp] theorem State.raise_reply : (s.raise e).reply = s.reply := rfl
@[simp] theorem State.raise_agenda : (s.raise e).agenda = s.agenda := rfl

@[simp] theorem State.dropWrite_nw : s.dropWrite.nw = s.nw := rfl
@[simp] theorem State.dropWrite_regs : s.dropWrite.regs = s.regs := rfl
@[simp] theorem State.dropWrite_status : s.dropWrite.status = { s.status with ovr := true } := rfl
@[simp] theorem State.dropWrite_op : s.dropWrite.op = s.op := rfl
@[simp] theorem State.dropWrite_loop : s.dropWrite.loop = s.loop := rfl
@[simp] theorem State.dropWrite_reply : s.dropWrite.reply = s.reply := rfl
@[simp] theorem State.dropWrite_agenda : s.dropWrite.agenda = s.agenda := rfl

/-! ### `resetOf` and `applyReset` -/

@[simp] theorem State.resetOf_nw (nw : Nat) : (State.resetOf nw).nw = nw := rfl
@[simp] theorem State.resetOf_regs (nw : Nat) : (State.resetOf nw).regs = Regs.zero nw := rfl
@[simp] theorem State.resetOf_status (nw : Nat) : (State.resetOf nw).status = Status.zero := rfl
@[simp] theorem State.resetOf_op (nw : Nat) : (State.resetOf nw).op = 0#32 := rfl
@[simp] theorem State.resetOf_loop (nw : Nat) : (State.resetOf nw).loop = PmulLoop.idle := rfl
@[simp] theorem State.resetOf_reply (nw : Nat) : (State.resetOf nw).reply = .silent := rfl
@[simp] theorem State.resetOf_agenda (nw : Nat) : (State.resetOf nw).agenda = [] := rfl

@[simp] theorem State.applyReset_nw : s.applyReset.nw = s.nw := rfl
@[simp] theorem State.applyReset_regs : s.applyReset.regs = Regs.zero s.nw := rfl
@[simp] theorem State.applyReset_status : s.applyReset.status = Status.zero := rfl
@[simp] theorem State.applyReset_op : s.applyReset.op = 0#32 := rfl
@[simp] theorem State.applyReset_loop : s.applyReset.loop = PmulLoop.idle := rfl
@[simp] theorem State.applyReset_reply : s.applyReset.reply = .silent := rfl
@[simp] theorem State.applyReset_agenda : s.applyReset.agenda = s.agenda := rfl

/-! ### Values depend on the register and the width alone -/

theorem State.value_congr {s t : State} {r : RegName} (hn : t.nw = s.nw)
    (hr : t.regs.get r = s.regs.get r) : t.value r = s.value r := by
  simp [State.value, hn, hr]

end Sys2Proof.Machine
end

