-- ==== Sys2Proof/Laws/Operands.lean ====
section
/-! SUPPORT. Patterns and values: `tc_W` and `sext_W` are inverse on the register range (10_state.md R11), so equality of
values is equality of patterns (R13). -/

namespace Sys2Proof.Machine

@[simp] theorem patternNat_nil : patternNat [] = 0 := rfl
theorem patternNat_cons (w : Word) (ws : Pattern) :
    patternNat (w :: ws) = w.toNat + 2 ^ 32 * patternNat ws := rfl

theorem two_pow_width_succ (n : Nat) : 2 ^ Config.width (n + 1) = 2 ^ 32 * 2 ^ Config.width n := by
  simp only [Config.width]; rw [← pow_add]; congr 1; omega

theorem patternNat_lt (p : Pattern) : patternNat p < 2 ^ Config.width p.length := by
  induction p with
  | nil => simp [Config.width]
  | cons w ws ih =>
    rw [List.length_cons, two_pow_width_succ, patternNat_cons]
    have hw := w.isLt
    have : 2 ^ 32 * (patternNat ws + 1) ≤ 2 ^ 32 * 2 ^ Config.width ws.length :=
      Nat.mul_le_mul_left _ ih
    omega

/-- A pattern is determined by its length and its unsigned value. -/
theorem patternNat_inj {p q : Pattern} (hl : p.length = q.length) (h : patternNat p = patternNat q) :
    p = q := by
  induction p generalizing q with
  | nil => cases q with
    | nil => rfl
    | cons _ _ => simp at hl
  | cons w ws ih => cases q with
    | nil => simp at hl
    | cons w' ws' =>
      simp only [patternNat_cons] at h
      have hw := w.isLt
      have hw' := w'.isLt
      have h1 : w.toNat = w'.toNat := by omega
      have h2 : patternNat ws = patternNat ws' := by omega
      rw [ih (by simpa using hl) h2, BitVec.eq_of_toNat_eq h1]

/-- Word `j` of a pattern is bits `[32*j+31 : 32*j]` of its value (20_memory.md R32). -/
theorem patternNat_word (p : Pattern) (j : Nat) :
    (p.getD j 0#32).toNat = patternNat p / 2 ^ (32 * j) % 2 ^ 32 := by
  induction p generalizing j with
  | nil => simp
  | cons w ws ih =>
    have hw := w.isLt
    cases j with
    | zero =>
      simp only [List.getD_cons_zero, Nat.mul_zero, pow_zero, Nat.div_one, patternNat_cons,
        Nat.add_mul_mod_self_left]
      exact (Nat.mod_eq_of_lt hw).symm
    | succ j =>
      have e : (2 : Nat) ^ (32 * (j + 1)) = 2 ^ 32 * 2 ^ (32 * j) := by rw [← pow_add]; congr 1; omega
      rw [List.getD_cons_succ, ih, patternNat_cons, e, ← Nat.div_div_eq_div_mul,
        Nat.add_mul_div_left _ _ (by positivity), Nat.div_eq_of_lt hw, Nat.zero_add]

@[simp] theorem tcPattern_length (n : Nat) (v : Int) : (tcPattern n v).length = n := by
  induction n generalizing v with
  | zero => rfl
  | succ n ih => simp [tcPattern, ih]

/-- `tc_N(i)` is `i mod 2^N` (00_scope.md R5). -/
theorem patternNat_tcPattern (n : Nat) (v : Int) :
    (patternNat (tcPattern n v) : Int) = v % 2 ^ Config.width n := by
  induction n generalizing v with
  | zero => simp [tcPattern, Config.width]
  | succ n ih =>
    have e : (2 : Int) ^ Config.width (n + 1) = 2 ^ 32 * 2 ^ Config.width n := by
      exact_mod_cast congrArg (Nat.cast (R := Int)) (two_pow_width_succ n)
    have hw : ((BitVec.ofInt 32 v).toNat : Int) = v % 2 ^ 32 := by
      rw [BitVec.toNat_ofInt]
      have : (0 : Int) ≤ v % (2 ^ 32 : Nat) := Int.emod_nonneg _ (by norm_num)
      rw [Int.toNat_of_nonneg this]; norm_num
    simp only [tcPattern, patternNat_cons, Nat.cast_add, Nat.cast_mul, Nat.cast_pow, Nat.cast_ofNat, hw, ih, e]
    have h1 := Int.emod_add_mul_ediv v (2 ^ 32)
    have h2 := Int.emod_add_mul_ediv (v / 2 ^ 32) (2 ^ Config.width n)
    have hq : (v / 2 ^ 32) / 2 ^ Config.width n = v / (2 ^ 32 * 2 ^ Config.width n) :=
      Int.ediv_ediv_of_nonneg (by positivity)
    have h3 := Int.emod_add_mul_ediv v (2 ^ 32 * 2 ^ Config.width n)
    rw [hq] at h2
    linear_combination h1 + 2 ^ 32 * h2 - h3

theorem signedValue_range {p : Pattern} {nw : Nat} (hl : p.length = nw) :
    -(2 : Int) ^ (Config.width nw - 1) ≤ signedValue nw p ∧
      signedValue nw p < 2 ^ (Config.width nw - 1) := by
  have h := patternNat_lt p
  rw [hl] at h
  unfold signedValue sext
  rcases Nat.eq_zero_or_pos nw with rfl | hn
  · simp only [Config.width] at h ⊢
    have : patternNat p = 0 := by simpa using h
    simp [this]
  · have e : 2 ^ Config.width nw = 2 * 2 ^ (Config.width nw - 1) := by
      rw [← pow_succ']; congr 1; simp only [Config.width]; omega
    have e' : (2 : Int) ^ Config.width nw = 2 * 2 ^ (Config.width nw - 1) := by exact_mod_cast e
    have hp : (0 : Int) < 2 ^ (Config.width nw - 1) := by positivity
    split
    · rename_i hlt
      have : (patternNat p : Int) < 2 ^ (Config.width nw - 1) := by exact_mod_cast hlt
      constructor <;> omega
    · rename_i hge
      have h1 : (2 : Int) ^ (Config.width nw - 1) ≤ patternNat p := by
        exact_mod_cast Nat.le_of_not_lt hge
      have h2 : (patternNat p : Int) < 2 ^ Config.width nw := by exact_mod_cast h
      constructor <;> omega

/-- The signed value is congruent to the unsigned one. -/
theorem signedValue_emod {p : Pattern} {nw : Nat} (hl : p.length = nw) :
    signedValue nw p % 2 ^ Config.width nw = patternNat p := by
  have h := patternNat_lt p
  rw [hl] at h
  have h2 : (patternNat p : Int) < 2 ^ Config.width nw := by exact_mod_cast h
  unfold signedValue sext
  split
  · exact Int.emod_eq_of_lt (by positivity) h2
  · rw [Int.sub_emod_right]; exact Int.emod_eq_of_lt (by positivity) h2

/-- Equal values are equal patterns (10_state.md R13). -/
theorem signedValue_inj {p q : Pattern} {nw : Nat} (hp : p.length = nw) (hq : q.length = nw)
    (h : signedValue nw p = signedValue nw q) : p = q := by
  apply patternNat_inj (hp.trans hq.symm)
  have h1 := signedValue_emod hp
  have h2 := signedValue_emod hq
  rw [h] at h1
  exact_mod_cast h1.symm.trans h2

/-- A register write of an integer in range reads back as that integer (10_state.md R11). -/
theorem signedValue_tcPattern {nw : Nat} {v : Int} (h1 : -(2 : Int) ^ (Config.width nw - 1) ≤ v)
    (h2 : v < 2 ^ (Config.width nw - 1)) (hn : 1 ≤ nw) : signedValue nw (tcPattern nw v) = v := by
  have e : (2 : Int) ^ Config.width nw = 2 * 2 ^ (Config.width nw - 1) := by
    rw [← pow_succ']; congr 1; simp only [Config.width]; omega
  obtain ⟨r1, r2⟩ := signedValue_range (tcPattern_length nw v)
  have hm := signedValue_emod (tcPattern_length nw v)
  rw [patternNat_tcPattern] at hm
  have hd : (2 : Int) ^ Config.width nw ∣ signedValue nw (tcPattern nw v) - v :=
    Int.ModEq.dvd (Int.ModEq.symm hm)
  have := Int.eq_zero_of_abs_lt_dvd hd (by rw [abs_lt]; constructor <;> omega)
  omega

/-- The pattern of a register's own value is the register's pattern. -/
theorem tcPattern_signedValue {p : Pattern} {nw : Nat} (hl : p.length = nw) :
    tcPattern nw (signedValue nw p) = p := by
  apply patternNat_inj ((tcPattern_length ..).trans hl.symm)
  have h := patternNat_tcPattern nw (signedValue nw p)
  rw [signedValue_emod hl] at h
  exact_mod_cast h

/-- `K`: an unsigned integer in range is stored as itself (10_state.md R11). -/
theorem patternNat_tcPattern_of_lt {nw : Nat} {v : Int} (h1 : 0 ≤ v) (h2 : v < 2 ^ Config.width nw) :
    (patternNat (tcPattern nw v) : Int) = v := by
  rw [patternNat_tcPattern, Int.emod_eq_of_lt h1 h2]

/-! ### Values of registers -/

theorem State.value_signed {s : State} {r : RegName} (h : r.isSigned = true) :
    s.value r = signedValue s.nw (s.regs.get r) := by simp [State.value, h]

theorem State.value_k (s : State) : s.value .k = s.scalar := rfl

theorem State.value_range {s : State} {r : RegName} (h : r.isSigned = true)
    (hl : (s.regs.get r).length = s.nw) :
    -(2 : Int) ^ (Config.width s.nw - 1) ≤ s.value r ∧ s.value r < 2 ^ (Config.width s.nw - 1) := by
  rw [State.value_signed h]; exact signedValue_range hl

/-- What `x[REG] <- v` leaves in `REG`, for a signed register and a value in range. -/
theorem State.value_writeValue {s : State} {r : RegName} {v : Int} (h : r.isSigned = true)
    (hn : 1 ≤ s.nw) (h1 : -(2 : Int) ^ (Config.width s.nw - 1) ≤ v)
    (h2 : v < 2 ^ (Config.width s.nw - 1)) : (s.writeValue r v).value r = v := by
  rw [State.value_signed h, State.writeValue_get_self, State.writeValue_nw,
    signedValue_tcPattern h1 h2 hn]

theorem State.value_writeValue_ne {s : State} {r n : RegName} {v : Int} (h : n ≠ r) :
    (s.writeValue r v).value n = s.value n :=
  State.value_congr rfl (State.writeValue_get_ne _ _ _ _ h)

@[simp] theorem RegName.ofIndex_index (r : RegName) : RegName.ofIndex r.index = some r := by
  cases r <;> rfl

theorem RegName.index_lt (r : RegName) : r.index < 9 := by cases r <;> decide

theorem RegName.index_of_ofIndex {i : Nat} {r : RegName} (h : RegName.ofIndex i = some r) :
    r.index = i := by
  unfold RegName.ofIndex at h
  split at h <;> first | (cases h; rfl) | exact absurd h (by simp)

theorem RegName.ofIndex_isSome {i : Nat} (h : i < 9) : ∃ r, RegName.ofIndex i = some r := by
  interval_cases i <;> exact ⟨_, rfl⟩

end Sys2Proof.Machine
end

