-- ==== Sys2Proof/Laws/Field.lean ====
section
/-! SUPPORT. What the field layer computes: `red` is the least non-negative residue, and `inv` answers a canonical inverse
exactly of the units (40_field_pipeline.md R61 to R63). -/

namespace Sys2Proof.Machine

/-! ### Reduction -/

/-- `rem_t` is the remainder of division rounding toward zero. -/
theorem remT_eq_tmod (v m : Int) : remT v m = Int.tmod v m := by
  rcases Int.natAbs_eq v with h | h
  · generalize v.natAbs = n at h
    subst h
    simp only [remT, Int.natAbs_natCast, ← Int.emod_def]
    rcases Nat.eq_zero_or_pos n with rfl | hn
    · simp
    · rw [Int.sign_eq_one_of_pos (by exact_mod_cast hn), one_mul,
        Int.tmod_eq_emod_of_nonneg (Int.natCast_nonneg n)]
  · generalize v.natAbs = n at h
    subst h
    simp only [remT, Int.natAbs_neg, Int.natAbs_natCast, ← Int.emod_def, Int.neg_tmod]
    rcases Nat.eq_zero_or_pos n with rfl | hn
    · simp
    · rw [Int.sign_eq_neg_one_of_neg (by omega), neg_one_mul,
        Int.tmod_eq_emod_of_nonneg (Int.natCast_nonneg n)]

/-- `red` is the Euclidean remainder (40_field_pipeline.md R62). -/
theorem red_eq_emod {v p : Int} (hp : 0 < p) : red v p = v % p := by
  have hc : Int.tmod v p ≡ v [ZMOD p] := by
    have := Int.tmod_add_mul_tdiv v p
    exact (Int.modEq_iff_dvd.mpr ⟨Int.tdiv v p, by linarith⟩)
  have hlt : |Int.tmod v p| < p := by
    have h := Int.emod_lt_of_pos (v.natAbs : Int) hp
    have h0 := Int.emod_nonneg (v.natAbs : Int) hp.ne'
    rcases le_total 0 v with hv | hv
    · have e : (v.natAbs : Int) = v := Int.natAbs_of_nonneg hv
      rw [Int.tmod_eq_emod_of_nonneg hv, ← e, abs_of_nonneg h0]; exact h
    · have e : (v.natAbs : Int) = -v := Int.ofNat_natAbs_of_nonpos hv
      have : Int.tmod v p = -((-v) % p) := by
        rw [← Int.tmod_eq_emod_of_nonneg (by omega : 0 ≤ -v), Int.neg_tmod, neg_neg]
      rw [this, ← e, abs_neg, abs_of_nonneg h0]; exact h
  rw [abs_lt] at hlt
  simp only [red, remT_eq_tmod]
  rw [← hc]
  split
  · rw [← Int.add_emod_right, Int.emod_eq_of_lt (by omega) (by omega)]
  · rw [Int.emod_eq_of_lt (by omega) (by omega)]

theorem red_nonneg {v p : Int} (hp : 0 < p) : 0 ≤ red v p := by
  rw [red_eq_emod hp]; exact Int.emod_nonneg _ hp.ne'

theorem red_lt {v p : Int} (hp : 0 < p) : red v p < p := by
  rw [red_eq_emod hp]; exact Int.emod_lt_of_pos _ hp

theorem red_modEq {v p : Int} (hp : 0 < p) : red v p ≡ v [ZMOD p] := by
  rw [red_eq_emod hp]; exact Int.mod_modEq v p

/-- `red` depends on the residue alone (40_field_pipeline.md R64). -/
theorem red_congr {v w p : Int} (hp : 0 < p) (h : v ≡ w [ZMOD p]) : red v p = red w p := by
  rw [red_eq_emod hp, red_eq_emod hp]; exact h

theorem red_eq_iff {v r p : Int} (hp : 0 < p) :
    red v p = r ↔ (0 ≤ r ∧ r < p) ∧ r ≡ v [ZMOD p] := by
  constructor
  · rintro rfl; exact ⟨⟨red_nonneg hp, red_lt hp⟩, red_modEq hp⟩
  · rintro ⟨⟨h0, h1⟩, h⟩
    rw [← red_congr hp h, red_eq_emod hp, Int.emod_eq_of_lt h0 h1]

theorem red_of_canonical {v p : Int} (h0 : 0 ≤ v) (h1 : v < p) : red v p = v :=
  (red_eq_iff (by omega)).mpr ⟨⟨h0, h1⟩, Int.ModEq.refl v⟩

theorem red_eq_zero_iff {v p : Int} (hp : 0 < p) : red v p = 0 ↔ p ∣ v := by
  rw [red_eq_emod hp]; exact ⟨Int.dvd_of_emod_eq_zero, Int.emod_eq_zero_of_dvd⟩

/-! ### Inversion -/

/-- The algorithm's answer inverts `c` when the two starting values are coprime and there are divisions enough. -/
theorem euclid_spec (p c : Int) (n : Nat) (r0 r1 s0 s1 : Int) (h1 : 0 ≤ r1) (h01 : r1 < r0)
    (hg : Int.gcd r0 r1 = 1) (e0 : s0 * c ≡ r0 [ZMOD p]) (e1 : s1 * c ≡ r1 [ZMOD p])
    (hn : r0 * r1 < 2 ^ n) : euclid n r0 r1 s0 s1 * c ≡ 1 [ZMOD p] := by
  induction n generalizing r0 r1 s0 s1 with
  | zero =>
    have h0 : r1 = 0 := by
      by_contra h
      have : 1 ≤ r0 * r1 := by nlinarith [lt_of_le_of_ne h1 (Ne.symm h)]
      norm_num at hn; omega
    subst h0
    have : r0 = 1 := by
      have := hg; rw [Int.gcd_zero_right] at this; omega
    subst this
    exact e0
  | succ n ih =>
    unfold euclid
    split
    · rename_i h0
      subst h0
      have : r0 = 1 := by
        have := hg; rw [Int.gcd_zero_right] at this; omega
      subst this
      exact e0
    · rename_i h0
      have hpos : 0 < r1 := lt_of_le_of_ne h1 (Ne.symm h0)
      have hm0 := Int.emod_nonneg r0 h0
      have hm1 := Int.emod_lt_of_pos r0 hpos
      have hd := Int.emod_add_mul_ediv r0 r1
      have hq : 1 ≤ r0 / r1 := Int.le_ediv_of_mul_le hpos (by omega)
      apply ih _ _ _ _ hm0 hm1
      · rw [Int.gcd_comm, Int.gcd_emod]; exact hg
      · exact e1
      · have : (s0 - r0 / r1 * s1) * c = s0 * c - r0 / r1 * (s1 * c) := by ring
        rw [this]
        have h2 : r0 % r1 = r0 - r0 / r1 * r1 := by linarith [mul_comm r1 (r0 / r1)]
        rw [h2]
        exact e0.sub (Int.ModEq.mul_left _ e1)
      · have h3 : 2 * (r0 % r1) ≤ r0 := by nlinarith
        rw [pow_succ] at hn
        nlinarith

/-- A unit of `[1, p)` times its inverse is 1, and the inverse is canonical (40_field_pipeline.md R63). -/
theorem unitInverse_spec {c p : Int} (h0 : 0 ≤ c) (hc : c < p) (hg : gcdOf c p = 1) :
    unitInverse c p * c ≡ 1 [ZMOD p] := by
  have hp : 0 < p := by omega
  have key : euclid (2 * (Nat.log2 p.toNat + 1) + 2) p c 0 1 * c ≡ 1 [ZMOD p] := by
    apply euclid_spec p c _ p c 0 1 h0 hc
    · rw [Int.gcd_comm]; exact hg
    · rw [zero_mul]; exact (Int.modEq_zero_iff_dvd.mpr dvd_rfl).symm
    · rw [one_mul]
    · have h1 : p.toNat < 2 ^ (Nat.log2 p.toNat + 1) := Nat.lt_log2_self
      have h2 : p < 2 ^ (Nat.log2 p.toNat + 1) := by
        have : (p.toNat : Int) < (2 ^ (Nat.log2 p.toNat + 1) : Nat) := by exact_mod_cast h1
        rw [Int.toNat_of_nonneg hp.le] at this
        exact_mod_cast this
      generalize Nat.log2 p.toNat + 1 = m at h2
      have e : (2 : Int) ^ (2 * m + 2) = 2 ^ m * 2 ^ m * 4 := by rw [pow_add, two_mul, pow_add]; norm_num
      rw [e]
      have : p * c ≤ 2 ^ m * 2 ^ m := mul_le_mul h2.le (by omega) h0 (by positivity)
      have : (0 : Int) < 2 ^ m * 2 ^ m := by positivity
      omega
  exact (Int.ModEq.mul_right c (red_modEq hp)).trans key

/-- There is at most one inverse of `c` in `[0, p)`. -/
theorem inverse_unique {c p u w : Int} (hu : 0 ≤ u ∧ u < p) (hw : 0 ≤ w ∧ w < p)
    (h1 : u * c ≡ 1 [ZMOD p]) (h2 : w * c ≡ 1 [ZMOD p]) : u = w := by
  have : u ≡ w [ZMOD p] := by
    have a : u * (w * c) ≡ u * 1 [ZMOD p] := Int.ModEq.mul_left u h2
    have b : w * (u * c) ≡ w * 1 [ZMOD p] := Int.ModEq.mul_left w h1
    have e : u * (w * c) = w * (u * c) := by ring
    rw [mul_one] at a b
    rw [e] at a
    exact a.symm.trans b
  have h := this
  rw [Int.ModEq, Int.emod_eq_of_lt hu.1 hu.2, Int.emod_eq_of_lt hw.1 hw.2] at h
  exact h

/-- An integer with an inverse modulo `p` is coprime to `p`. -/
theorem gcdOf_eq_one_of_mul_modEq {u v p : Int} (hp : 0 < p) (h : u * v ≡ 1 [ZMOD p]) :
    gcdOf (red v p) p = 1 := by
  have h' : u * red v p ≡ 1 [ZMOD p] := (Int.ModEq.mul_left u (red_modEq hp)).trans h
  obtain ⟨k, hk⟩ := h'.dvd
  have : IsCoprime (red v p) p := ⟨u, k, by linarith⟩
  exact Int.isCoprime_iff_gcd_eq_one.mp this

theorem inv_eq_undefined {v p : Int} (h : red v p = 0) : inv v p = .error .undefinedInverse := by
  simp [inv, h]

theorem inv_eq_nonInvertible {v p : Int} (h : red v p ≠ 0) (hg : gcdOf (red v p) p ≠ 1) :
    inv v p = .error .nonInvertible := by
  simp [inv, h, hg]

theorem inv_eq_ok {v p : Int} (h : red v p ≠ 0) (hg : gcdOf (red v p) p = 1) :
    inv v p = .ok (unitInverse (red v p) p) := by
  simp [inv, h, hg]

/-- When `inv` answers `u`: `u` is the canonical inverse of `v` (40_field_pipeline.md R63). -/
theorem inv_ok_spec {v p u : Int} (hp : 2 ≤ p) (h : inv v p = .ok u) :
    (1 ≤ u ∧ u < p) ∧ u * v ≡ 1 [ZMOD p] := by
  have hp0 : 0 < p := by omega
  unfold inv at h
  simp only at h
  split at h
  · cases h
  · split at h
    · cases h
    · rename_i h0 hg
      cases h
      have hm := unitInverse_spec (red_nonneg hp0) (red_lt hp0) (not_not.mp hg)
      have hv := (Int.ModEq.mul_left (unitInverse (red v p) p) (red_modEq (v := v) hp0)).symm.trans hm
      have hn : 0 ≤ unitInverse (red v p) p := red_nonneg hp0
      have hl : unitInverse (red v p) p < p := red_lt hp0
      refine ⟨⟨?_, hl⟩, hv⟩
      by_contra hc
      have : unitInverse (red v p) p = 0 := by omega
      rw [this, zero_mul] at hv
      have := Int.le_of_dvd (by norm_num) hv.dvd
      omega

/-- `inv` answers exactly the canonical inverse, whenever there is one (40_field_pipeline.md R63). -/
theorem inv_ok_iff {v p u : Int} (hp : 2 ≤ p) :
    inv v p = .ok u ↔ (1 ≤ u ∧ u < p) ∧ u * v ≡ 1 [ZMOD p] := by
  refine ⟨inv_ok_spec hp, ?_⟩
  rintro ⟨⟨h1, h2⟩, h⟩
  have hp0 : 0 < p := by omega
  have hg := gcdOf_eq_one_of_mul_modEq hp0 h
  have h0 : red v p ≠ 0 := by
    intro h0
    rw [h0] at hg
    have : gcdOf 0 p = p.natAbs := by simp [gcdOf]
    omega
  rw [inv_eq_ok h0 hg]
  have hs := inv_ok_spec hp (inv_eq_ok h0 hg)
  rw [inverse_unique ⟨by omega, hs.1.2⟩ ⟨by omega, h2⟩ hs.2 h]

/-- The errors of `inv` are the two conditions of 40_field_pipeline.md R63. -/
theorem inv_error_cases {v p : Int} {e : CmdError} (h : inv v p = .error e) :
    (e = .undefinedInverse ∧ red v p = 0) ∨
      (e = .nonInvertible ∧ red v p ≠ 0 ∧ gcdOf (red v p) p ≠ 1) := by
  unfold inv at h
  simp only at h
  split at h
  · cases h; exact .inl ⟨rfl, ‹_›⟩
  · split at h
    · cases h; exact .inr ⟨rfl, ‹_›, ‹_›⟩
    · cases h

/-- `inv` depends on the residue alone. -/
theorem inv_congr {v w p : Int} (hp : 0 < p) (h : v ≡ w [ZMOD p]) : inv v p = inv w p := by
  simp only [inv, red_congr hp h]

/-- For a prime modulus every non-zero residue has an inverse (40_field_pipeline.md R63). -/
theorem gcdOf_eq_one_of_prime {v : Int} {p : Nat} (hp : p.Prime) (h : red v p ≠ 0) :
    gcdOf (red v p) p = 1 := by
  have hp0 : (0 : Int) < p := by exact_mod_cast hp.pos
  have h1 := red_nonneg (v := v) hp0
  have h2 := red_lt (v := v) hp0
  simp only [gcdOf, Int.natAbs_natCast]
  refine (Nat.Prime.coprime_iff_not_dvd hp).mpr (fun hd => ?_) |>.symm
  have := Nat.le_of_dvd (by omega) hd
  omega

theorem inv_prime {v : Int} {p : Nat} (hp : p.Prime) (h : red v p ≠ 0) : ∃ u, inv v p = .ok u :=
  ⟨_, inv_eq_ok h (gcdOf_eq_one_of_prime hp h)⟩

end Sys2Proof.Machine
end

