-- ==== Sys2Proof/Laws/PointArith.lean ====
section
/-! SUPPORT. What `addPoint` answers, case by case (41_point_add_double.md R70, R71). -/

namespace Sys2Proof.Machine

variable {P Q R : Point} {a p : Int} {e : CmdError}

theorem addPoint_identity_left (Q : Point) (a p : Int) : addPoint Point.identity Q a p = .ok Q := by
  simp [addPoint]

theorem addPoint_identity_right (P : Point) (a p : Int) : addPoint P Point.identity a p = .ok P := by
  unfold addPoint
  split
  · rename_i h; rw [h]
  · simp

/-- Neither operand is `O` and the denominator is zero modulo `p`: the identity point (R71). -/
theorem addPoint_zero_den (hP : P ≠ Point.identity) (hQ : Q ≠ Point.identity)
    (hd : red (slopeDen P Q) p = 0) : addPoint P Q a p = .ok Point.identity := by
  simp [addPoint, hP, hQ, inv_eq_undefined hd]

/-- Neither operand is `O` and the denominator is a non-zero non-unit: NonInvertible (R71). -/
theorem addPoint_nonInvertible (hP : P ≠ Point.identity) (hQ : Q ≠ Point.identity)
    (hd : red (slopeDen P Q) p ≠ 0) (hg : gcdOf (red (slopeDen P Q) p) p ≠ 1) :
    addPoint P Q a p = .error .nonInvertible := by
  simp [addPoint, hP, hQ, inv_eq_nonInvertible hd hg]

/-- Neither operand is `O` and the denominator is a unit: the point of the slope (R71). -/
theorem addPoint_unit (hP : P ≠ Point.identity) (hQ : Q ≠ Point.identity)
    {u : Int} (hu : inv (slopeDen P Q) p = .ok u) :
    addPoint P Q a p = .ok (pointOnLine P Q (red (slopeNum P Q a * u) p) p) := by
  simp [addPoint, hP, hQ, hu]

/-- What a call of `addPoint` can do: one of the cases of R70 and R71. -/
theorem addPoint_cases (P Q : Point) (a p : Int) :
    (P = Point.identity ∧ addPoint P Q a p = .ok Q) ∨
    (P ≠ Point.identity ∧ Q = Point.identity ∧ addPoint P Q a p = .ok P) ∨
    (P ≠ Point.identity ∧ Q ≠ Point.identity ∧ red (slopeDen P Q) p = 0 ∧
      addPoint P Q a p = .ok Point.identity) ∨
    (P ≠ Point.identity ∧ Q ≠ Point.identity ∧ red (slopeDen P Q) p ≠ 0 ∧
      gcdOf (red (slopeDen P Q) p) p ≠ 1 ∧ addPoint P Q a p = .error .nonInvertible) ∨
    (P ≠ Point.identity ∧ Q ≠ Point.identity ∧ ∃ u, inv (slopeDen P Q) p = .ok u ∧
      addPoint P Q a p = .ok (pointOnLine P Q (red (slopeNum P Q a * u) p) p)) := by
  by_cases hP : P = Point.identity
  · exact .inl ⟨hP, by rw [hP, addPoint_identity_left]⟩
  by_cases hQ : Q = Point.identity
  · exact .inr (.inl ⟨hP, hQ, by rw [hQ, addPoint_identity_right]⟩)
  by_cases hd : red (slopeDen P Q) p = 0
  · exact .inr (.inr (.inl ⟨hP, hQ, hd, addPoint_zero_den hP hQ hd⟩))
  by_cases hg : gcdOf (red (slopeDen P Q) p) p = 1
  · exact .inr (.inr (.inr (.inr ⟨hP, hQ, _, inv_eq_ok hd hg, addPoint_unit hP hQ (inv_eq_ok hd hg)⟩)))
  · exact .inr (.inr (.inr (.inl ⟨hP, hQ, hd, hg, addPoint_nonInvertible hP hQ hd hg⟩)))

/-- The only error of `addPoint` is NonInvertible (R71). -/
theorem addPoint_error (h : addPoint P Q a p = .error e) : e = .nonInvertible := by
  rcases addPoint_cases P Q a p with ⟨_, h'⟩ | ⟨_, _, h'⟩ | ⟨_, _, _, h'⟩ | ⟨_, _, _, _, h'⟩ | ⟨_, _, _, _, h'⟩ <;>
    rw [h'] at h <;> cases h
  rfl

theorem pointOnLine_canonical (hp : 0 < p) (P Q : Point) (lam : Int) :
    (pointOnLine P Q lam p).Canonical p :=
  ⟨⟨red_nonneg hp, red_lt hp⟩, ⟨red_nonneg hp, red_lt hp⟩⟩

/-- The coordinates of the point of a slope, as residues. -/
theorem pointOnLine_modEq (hp : 0 < p) (P Q : Point) {lam l : Int} (h : lam ≡ l [ZMOD p]) :
    (pointOnLine P Q lam p).x ≡ l * l - P.x - Q.x [ZMOD p] ∧
      (pointOnLine P Q lam p).y ≡ l * (P.x - (pointOnLine P Q lam p).x) - P.y [ZMOD p] := by
  refine ⟨(red_modEq hp).trans ?_, (red_modEq hp).trans ?_⟩
  · exact ((h.mul h).sub_right _).sub_right _
  · exact (h.mul_right _).sub_right _

/-- The computed point lies on the slope `num / den` (R71). -/
theorem onSlope_of_unit (hp : 2 ≤ p) {u : Int} (hu : inv (slopeDen P Q) p = .ok u) :
    OnSlope p (slopeNum P Q a) (slopeDen P Q) P Q (pointOnLine P Q (red (slopeNum P Q a * u) p) p) := by
  have hp0 : 0 < p := by omega
  refine ⟨pointOnLine_canonical hp0 _ _ _, fun lam hl => pointOnLine_modEq hp0 P Q ?_⟩
  obtain ⟨-, hi⟩ := inv_ok_spec hp hu
  refine (red_modEq hp0).trans ?_
  have h1 := hl.mul_right u
  have h2 := hi.mul_left lam
  have e1 : lam * slopeDen P Q * u = lam * (u * slopeDen P Q) := by ring
  rw [e1] at h1
  rw [mul_one] at h2
  exact h1.symm.trans h2

/-- A slope determines its point: canonical coordinates are determined by their residues. -/
theorem onSlope_unique {num den : Int} {R' : Point} (hu : ∃ u, u * den ≡ 1 [ZMOD p])
    (h : OnSlope p num den P Q R) (h' : OnSlope p num den P Q R') : R = R' := by
  obtain ⟨u, hu⟩ := hu
  have hl : num * u * den ≡ num [ZMOD p] := by
    have := hu.mul_left num
    rw [mul_one, ← mul_assoc] at this
    exact this
  obtain ⟨hx, hy⟩ := h.2 _ hl
  obtain ⟨hx', hy'⟩ := h'.2 _ hl
  have eq_of {v w : Int} (hv : Canonical p v) (hw : Canonical p w) (e : v ≡ w [ZMOD p]) : v = w := by
    rwa [Int.ModEq, Int.emod_eq_of_lt hv.1 hv.2, Int.emod_eq_of_lt hw.1 hw.2] at e
  have ex : R.x = R'.x := eq_of h.1.1 h'.1.1 (hx.trans hx'.symm)
  rw [ex] at hy
  have ey : R.y = R'.y := eq_of h.1.2 h'.1.2 (hy.trans hy'.symm)
  cases R; cases R'; simp_all

/-- Canonical operands give a canonical result. -/
theorem addPoint_canonical (hp : 2 ≤ p) (hP : P.Canonical p) (hQ : Q.Canonical p)
    (h : addPoint P Q a p = .ok R) : R.Canonical p := by
  rcases addPoint_cases P Q a p with ⟨_, h'⟩ | ⟨_, _, h'⟩ | ⟨_, _, _, h'⟩ | ⟨_, _, _, _, h'⟩ | ⟨_, _, _, _, h'⟩ <;>
    rw [h'] at h <;> cases h
  · exact hQ
  · exact hP
  · simp only [Point.Canonical, Canonical, Point.identity]; omega
  · exact pointOnLine_canonical (by omega) _ _ _

theorem Point.Canonical.fits {nw : Nat} (h : R.Canonical p) (hp : p < 2 ^ (Config.width nw - 1)) :
    R.Fits nw := by
  have : (0 : Int) < 2 ^ (Config.width nw - 1) := by positivity
  obtain ⟨⟨h1, h2⟩, h3, h4⟩ := h
  refine ⟨⟨?_, ?_⟩, ?_, ?_⟩ <;> omega

/-- No overflow at a result write: the result of `addPoint` fits when its operands do (40_field_pipeline.md R60). -/
theorem addPoint_fits {nw : Nat} (hp : 2 ≤ p) (hpw : p < 2 ^ (Config.width nw - 1)) (hP : P.Fits nw) (hQ : Q.Fits nw)
    (h : addPoint P Q a p = .ok R) : R.Fits nw := by
  rcases addPoint_cases P Q a p with ⟨_, h'⟩ | ⟨_, _, h'⟩ | ⟨_, _, _, h'⟩ | ⟨_, _, _, _, h'⟩ | ⟨_, _, _, _, h'⟩ <;>
    rw [h'] at h <;> cases h
  · exact hQ
  · exact hP
  · exact Point.Canonical.fits (p := p) (by simp only [Point.Canonical, Canonical, Point.identity]; omega) hpw
  · exact (pointOnLine_canonical (by omega) _ _ _).fits hpw

/-- With a prime modulus `addPoint` raises nothing (40_field_pipeline.md R63). -/
theorem addPoint_prime {p : Nat} (hp : p.Prime) (P Q : Point) (a : Int) : ∃ R, addPoint P Q a p = .ok R := by
  rcases addPoint_cases P Q a p with ⟨_, h'⟩ | ⟨_, _, h'⟩ | ⟨_, _, _, h'⟩ | ⟨_, _, hd, hg, _⟩ | ⟨_, _, _, _, h'⟩
  · exact ⟨_, h'⟩
  · exact ⟨_, h'⟩
  · exact ⟨_, h'⟩
  · exact absurd (gcdOf_eq_one_of_prime hp hd) hg
  · exact ⟨_, h'⟩

end Sys2Proof.Machine
end

