-- ==== Sys2Proof/Laws/ScalarMul.lean ====
section
/-! SUPPORT. PMUL's loop: it ends with `s = 0` after `bitlen(k)` iterations, and where it stands does not change where it
ends (42_scalar_mul.md R80). -/

namespace Sys2Proof.Machine

variable {P : Point} {a p : Int} {k n : Nat} {l l' : PmulLoop} {e : CmdError}

theorem bitlen_zero : bitlen 0 = 0 := rfl

theorem bitlen_eq_size (k : Nat) : bitlen k = k.size := by
  unfold bitlen
  split
  · subst k; rfl
  · rename_i h
    apply le_antisymm
    · rw [Nat.succ_le_iff, Nat.lt_size]; exact Nat.log2_self_le h
    · rw [Nat.size_le]; exact Nat.lt_log2_self

/-- Each iteration uses up one binary digit. -/
theorem bitlen_half (h : k ≠ 0) : bitlen k = bitlen (k / 2) + 1 := by
  unfold bitlen
  rw [if_neg h]
  split
  · have : k = 1 := by omega
    subst this; decide
  · rename_i h2
    have hk : 2 ≤ k := by omega
    rw [Nat.log2_def, if_pos hk]

theorem iterate_s (h : l.iterate a p = .ok l') : l'.s = l.s / 2 := by
  unfold PmulLoop.iterate at h
  split at h
  · cases h
  · split at h
    · cases h
    · cases h; rfl

theorem iterate_live (h : l.iterate a p = .ok l') : l'.live = true := by
  unfold PmulLoop.iterate at h
  split at h
  · cases h
  · split at h
    · cases h
    · cases h; rfl

theorem iterations_zero : l.iterations a p 0 = .ok l := rfl

theorem iterations_done (h : l.s = 0) : l.iterations a p n = .ok l := by
  cases n with
  | zero => rfl
  | succ n => simp [PmulLoop.iterations, h]

theorem iterations_succ_ok (h : l.s ≠ 0) (hi : l.iterate a p = .ok l') :
    l.iterations a p (n + 1) = l'.iterations a p n := by
  simp [PmulLoop.iterations, h, hi]

theorem iterations_succ_error (h : l.s ≠ 0) (hi : l.iterate a p = .error e) :
    l.iterations a p (n + 1) = .error e := by
  simp [PmulLoop.iterations, h, hi]

/-- One more iteration at the end of a run of them. -/
theorem iterations_snoc (h : l.iterations a p n = .ok l') (hs : l'.s ≠ 0) :
    l.iterations a p (n + 1) = l'.iterate a p := by
  induction n generalizing l with
  | zero =>
    cases h
    simp only [PmulLoop.iterations, if_neg hs]
    cases l'.iterate a p <;> rfl
  | succ n ih =>
    by_cases h0 : l.s = 0
    · rw [iterations_done h0] at h; cases h; exact absurd h0 hs
    · cases hi : l.iterate a p with
      | error e => rw [iterations_succ_error h0 hi] at h; cases h
      | ok l1 =>
        rw [iterations_succ_ok h0 hi] at h ⊢
        exact ih h

/-- The fuel `bitlen(s)` is enough: the loop ends with `s = 0`. -/
theorem iterations_bitlen_s (h : l.iterations a p (bitlen l.s) = .ok l') : l'.s = 0 := by
  generalize hn : bitlen l.s = n at h
  induction n generalizing l with
  | zero =>
    cases h
    unfold bitlen at hn
    split at hn
    · assumption
    · omega
  | succ n ih =>
    have h0 : l.s ≠ 0 := by intro h0; rw [h0] at hn; cases hn
    cases hi : l.iterate a p with
    | error e => rw [iterations_succ_error h0 hi] at h; cases h
    | ok l1 =>
      rw [iterations_succ_ok h0 hi] at h
      refine ih ?_ h
      rw [iterate_s hi]
      have := bitlen_half h0
      omega

theorem finish_done (h : l.s = 0) : l.finish a p = .ok ⟨red l.t.x p, red l.t.y p⟩ := by
  simp [PmulLoop.finish, iterations_done h]

/-- An iteration leaves the loop's outcome as it was. -/
theorem finish_iterate (h : l.s ≠ 0) (hi : l.iterate a p = .ok l') : l.finish a p = l'.finish a p := by
  unfold PmulLoop.finish
  rw [bitlen_half h, iterations_succ_ok h hi, iterate_s hi]

theorem finish_iterate_error (h : l.s ≠ 0) (hi : l.iterate a p = .error e) : l.finish a p = .error e := by
  unfold PmulLoop.finish
  rw [bitlen_half h, iterations_succ_error h hi]

/-- Iterations leave the loop's outcome as it was. -/
theorem finish_iterations (h : l.iterations a p n = .ok l') : l.finish a p = l'.finish a p := by
  induction n generalizing l with
  | zero => cases h; rfl
  | succ n ih =>
    by_cases h0 : l.s = 0
    · rw [iterations_done h0] at h; cases h; rfl
    · cases hi : l.iterate a p with
      | error e => rw [iterations_succ_error h0 hi] at h; cases h
      | ok l1 =>
        rw [iterations_succ_ok h0 hi] at h
        rw [finish_iterate h0 hi]
        exact ih h

theorem iterate_error (h : l.iterate a p = .error e) : e = .nonInvertible := by
  unfold PmulLoop.iterate at h
  split at h
  · rename_i h1
    cases h
    split at h1
    · exact addPoint_error h1
    · cases h1
  · split at h
    · rename_i h2; cases h; exact addPoint_error h2
    · cases h

theorem iterations_error (h : l.iterations a p n = .error e) : e = .nonInvertible := by
  induction n generalizing l with
  | zero => cases h
  | succ n ih =>
    by_cases h0 : l.s = 0
    · rw [iterations_done h0] at h; cases h
    · cases hi : l.iterate a p with
      | error e' =>
        rw [iterations_succ_error h0 hi] at h
        cases h
        exact iterate_error hi
      | ok l1 =>
        rw [iterations_succ_ok h0 hi] at h
        exact ih h

theorem finish_error (h : l.finish a p = .error e) : e = .nonInvertible := by
  unfold PmulLoop.finish at h
  split at h
  · rename_i h1; cases h; exact iterations_error h1
  · cases h

/-- The result of a PMUL is canonical (42_scalar_mul.md R81). -/
theorem finish_canonical (hp : 0 < p) {R : Point} (h : l.finish a p = .ok R) : R.Canonical p := by
  unfold PmulLoop.finish at h
  split at h
  · cases h
  · cases h; exact ⟨⟨red_nonneg hp, red_lt hp⟩, ⟨red_nonneg hp, red_lt hp⟩⟩

/-- With a prime modulus the loop raises nothing. -/
theorem iterations_prime {p : Nat} (hp : p.Prime) (l : PmulLoop) (a : Int) (n : Nat) :
    ∃ l', l.iterations a p n = .ok l' := by
  induction n generalizing l with
  | zero => exact ⟨l, rfl⟩
  | succ n ih =>
    by_cases h0 : l.s = 0
    · exact ⟨l, iterations_done h0⟩
    · have : ∃ l1, l.iterate a p = .ok l1 := by
        obtain ⟨t, ht⟩ := addPoint_prime hp l.t l.d a
        obtain ⟨d, hd⟩ := addPoint_prime hp l.d l.d a
        unfold PmulLoop.iterate
        split_ifs <;> simp [ht, hd]
      obtain ⟨l1, h1⟩ := this
      rw [iterations_succ_ok h0 h1]
      exact ih l1

theorem finish_prime {p : Nat} (hp : p.Prime) (l : PmulLoop) (a : Int) : ∃ R, l.finish a p = .ok R := by
  obtain ⟨l', h⟩ := iterations_prime hp l a (bitlen l.s)
  exact ⟨_, by simp [PmulLoop.finish, h]; rfl⟩

/-- `multiplyPoint` for a scalar of 0 (42_scalar_mul.md R81). -/
theorem multiplyPoint_zero (hp : 0 < p) (P : Point) : multiplyPoint P 0 a p = .ok Point.identity := by
  unfold multiplyPoint
  rw [finish_done rfl]
  simp [PmulLoop.start, Point.identity, red_eq_emod hp]

/-! ### Where a PMUL in progress stands -/

theorem State.pmulLoop_of_idle {s : State} (h : s.loop.live = false) :
    s.pmulLoop = PmulLoop.start s.point1 s.scalar := by
  simp [State.pmulLoop, h]

theorem State.pmulLoop_live (s : State) : s.pmulLoop.live = true := by
  unfold State.pmulLoop
  split
  · assumption
  · rfl

/-- A PMUL on track ends where `multiplyPoint` of its operands ends. -/
theorem State.pmulLoop_finish {s : State} (h : s.LoopOnTrack) :
    s.pmulLoop.finish (s.value .ra) (s.value .rp) = multiplyPoint s.point1 s.scalar (s.value .ra) (s.value .rp) := by
  cases hl : s.loop.live with
  | false => rw [State.pmulLoop_of_idle hl]; rfl
  | true =>
    obtain ⟨n, hn⟩ := h hl
    have : s.pmulLoop = s.loop := by simp [State.pmulLoop, hl]
    rw [this]
    exact (finish_iterations hn).symm

end Sys2Proof.Machine
end

