-- ==== Sys2Proof/Laws/Ops.lean ====
section
/-! SUPPORT. What the shared operations leave and what a command can do: it raises, or it commits `XR`, or it commits
`XR` and `YR` (10_state.md R18, R19). -/

namespace Sys2Proof.Machine

/-! ### Frames -/

/-- `STATUS` stands at its own offset only (20_memory.md R31). -/
theorem locate_eq_status {nw off : Nat} (h : locate nw off = .status) : off = statusOffset := by
  by_contra h4
  unfold locate at h
  by_cases h0 : off = cmdOffset
  · rw [if_pos h0] at h; cases h
  · rw [if_neg h0, if_neg h4] at h
    split at h
    · split at h <;> cases h
    · cases h

/-- Reading the window depends on the width, the status and the registers. -/
theorem State.readWord_congr {s t : State} (hn : t.nw = s.nw) {off : Nat} (ho : off ≠ statusOffset)
    (h : ∀ r j, locate s.nw off = .data r j → t.regs.get r = s.regs.get r) : t.readWord off = s.readWord off := by
  unfold State.readWord
  rw [hn]
  cases hl : locate s.nw off with
  | cmd => rfl
  | status => exact absurd (locate_eq_status hl) ho
  | data r j => simp only [State.regWord, h r j hl]
  | reserved => rfl

/-- A state that agrees with `s` but for the registers `written`, `STATUS` and the hidden loop keeps the frame. -/
theorem Frame.of_regs {written : List RegName} {s t : State} (hn : t.nw = s.nw) (ho : t.op = s.op)
    (hr : t.reply = s.reply) (ha : t.agenda = s.agenda)
    (h : ∀ r, r ∉ written → t.regs.get r = s.regs.get r) : Frame written s t :=
  { nw := hn, op := ho, reply := hr, agenda := ha, regs := h
    window := fun _ h4 hw => State.readWord_congr hn h4 fun r j hl => h r fun hm => hw r hm j hl }

theorem State.raise_frame (s : State) (e : CmdError) : Frame [] s (s.raise e) :=
  .of_regs rfl rfl rfl rfl fun _ _ => rfl

theorem State.commitX_frame (s : State) (v : Int) : Frame [.xr] s (s.commitX v) :=
  .of_regs rfl rfl rfl rfl fun r hr => by
    rw [State.commitX_regs, Regs.get_set_ne _ _ _ _ (by simpa using hr)]

theorem State.commitPoint_frame (s : State) (q : Point) : Frame [.xr, .yr] s (s.commitPoint q) :=
  .of_regs rfl rfl rfl rfl fun r hr => by
    simp only [List.mem_cons, List.not_mem_nil, or_false, not_or] at hr
    rw [State.commitPoint_regs, Regs.get_set_ne _ _ _ _ hr.2, Regs.get_set_ne _ _ _ _ hr.1]

/-! ### Status and result after a completion -/

theorem State.raise_completedErr (s : State) (e : CmdError) : CompletedErr e s (s.raise e) :=
  ⟨rfl, rfl, rfl, rfl, rfl⟩

theorem State.commitX_completedOk (s : State) (v : Int) : CompletedOk s (s.commitX v) :=
  ⟨rfl, rfl, rfl, rfl, rfl⟩

theorem State.commitPoint_completedOk (s : State) (q : Point) : CompletedOk s (s.commitPoint q) :=
  ⟨rfl, rfl, rfl, rfl, rfl⟩

theorem State.value_commitX {s : State} {v p : Int} (hn : 1 ≤ s.nw) (h0 : 0 ≤ v) (h1 : v < p)
    (hp : p < 2 ^ (Config.width s.nw - 1)) : (s.commitX v).value .xr = v := by
  have : (0 : Int) < 2 ^ (Config.width s.nw - 1) := by positivity
  have h : (s.commitX v).value .xr = (s.writeValue .xr v).value .xr := State.value_congr rfl rfl
  rw [h, State.value_writeValue rfl hn (by omega) (by omega)]

theorem State.result_commitPoint {s : State} {q : Point} (hn : 1 ≤ s.nw) (h : q.Fits s.nw) :
    (s.commitPoint q).result = q := by
  obtain ⟨⟨x1, x2⟩, y1, y2⟩ := h
  have hx : (s.commitPoint q).value .xr = (s.writeValue .xr q.x).value .xr := State.value_congr rfl rfl
  have hy : (s.commitPoint q).value .yr = (s.writeValue .yr q.y).value .yr := State.value_congr rfl rfl
  simp only [State.result]
  rw [hx, hy, State.value_writeValue rfl hn x1 x2, State.value_writeValue rfl hn y1 y2]

/-! ### Values an instance's registers hold -/

theorem State.Inv.value_range {s : State} (hI : s.Inv) {r : RegName} (h : r.isSigned = true) :
    -(2 : Int) ^ (Config.width s.nw - 1) ≤ s.value r ∧ s.value r < 2 ^ (Config.width s.nw - 1) :=
  State.value_range h (hI.regs r)

theorem State.Inv.point1_fits {s : State} (hI : s.Inv) : s.point1.Fits s.nw :=
  ⟨hI.value_range (r := .x1) rfl, hI.value_range (r := .y1) rfl⟩

theorem State.Inv.point2_fits {s : State} (hI : s.Inv) : s.point2.Fits s.nw :=
  ⟨hI.value_range (r := .x2) rfl, hI.value_range (r := .y2) rfl⟩

/-- An idle engine has no live hidden loop (10_state.md R20). -/
theorem State.Inv.loop_idle {s : State} (hI : s.Inv) (hb : s.status.busy = false) : s.loop = PmulLoop.idle := by
  apply hI.loopDead
  cases hl : s.loop.live with
  | false => rfl
  | true => rw [(hI.loopLive hl).1] at hb; cases hb

/-! ### What a command can do -/

theorem State.withModulus_small {s : State} {go : Int → State} (h : s.value .rp < 2) :
    s.withModulus go = s.raise .invalidModulus := by simp [State.withModulus, h]

theorem State.withModulus_go {s : State} {go : Int → State} (h : 2 ≤ s.value .rp) :
    s.withModulus go = go (s.value .rp) := by
  simp [State.withModulus, not_lt.mpr h]

/-- Every command completes: with an error that is not IllegalCommand, or with a canonical `XR`, or with a point. -/
theorem exec_cases (i : Instr) (s : State) :
    ∃ t, exec i s = .next t ∧
      ((∃ e, e ≠ CmdError.illegalCommand ∧ t = s.raise e) ∨
        (2 ≤ s.value .rp ∧ ∃ v, (0 ≤ v ∧ v < s.value .rp) ∧ (i = .fred ∨ i = .finv) ∧ t = s.commitX v) ∨
        (2 ≤ s.value .rp ∧ ∃ q, (i = .padd ∨ i = .pdbl ∨ i = .pmul) ∧ t = s.commitPoint q)) := by
  have small : ∀ go : Int → State, s.value .rp < 2 → s.withModulus go = s.raise .invalidModulus :=
    fun go h => State.withModulus_small h
  have big : ∀ go : Int → State, ¬s.value .rp < 2 → s.withModulus go = go (s.value .rp) :=
    fun go h => State.withModulus_go (not_lt.mp h)
  by_cases hp : s.value .rp < 2
  · cases i <;> exact ⟨_, rfl, .inl ⟨.invalidModulus, by decide, small _ hp⟩⟩
  have hp2 : 2 ≤ s.value .rp := not_lt.mp hp
  have point : ∀ r : Except CmdError Point, (∀ e, r = .error e → e = .nonInvertible) →
      (∃ e, e ≠ CmdError.illegalCommand ∧ s.commitOrRaise r = s.raise e) ∨
        ∃ q, s.commitOrRaise r = s.commitPoint q := by
    intro r h
    cases r with
    | error e => exact .inl ⟨e, by rw [h e rfl]; decide, rfl⟩
    | ok q => exact .inr ⟨q, rfl⟩
  cases i with
  | fred =>
    refine ⟨_, rfl, .inr (.inl ⟨hp2, red (s.value .x1) (s.value .rp), ⟨red_nonneg (by omega), red_lt (by omega)⟩,
      .inl rfl, big _ hp⟩)⟩
  | finv =>
    refine ⟨_, rfl, ?_⟩
    rw [big _ hp]
    cases hv : inv (s.value .x1) (s.value .rp) with
    | error e =>
      rcases inv_error_cases hv with ⟨rfl, _⟩ | ⟨rfl, _⟩ <;> exact .inl ⟨_, by decide, rfl⟩
    | ok u =>
      have := (inv_ok_spec hp2 hv).1
      exact .inr (.inl ⟨hp2, u, ⟨by omega, this.2⟩, .inr rfl, rfl⟩)
  | padd =>
    refine ⟨_, rfl, ?_⟩
    rw [big _ hp]
    rcases point _ (fun e h => addPoint_error h) with h | ⟨q, h⟩
    · exact .inl h
    · exact .inr (.inr ⟨hp2, q, .inl rfl, h⟩)
  | pdbl =>
    refine ⟨_, rfl, ?_⟩
    rw [big _ hp]
    rcases point _ (fun e h => addPoint_error h) with h | ⟨q, h⟩
    · exact .inl h
    · exact .inr (.inr ⟨hp2, q, .inr (.inl rfl), h⟩)
  | pmul =>
    refine ⟨_, rfl, ?_⟩
    rw [big _ hp]
    rcases point _ (fun e h => finish_error h) with h | ⟨q, h⟩
    · exact .inl h
    · exact .inr (.inr ⟨hp2, q, .inr (.inr rfl), h⟩)

end Sys2Proof.Machine
end

