-- ==== Sys2Proof/Laws/Bus.lean ====
section
/-! SUPPORT. The address map (20_memory.md R31) and what serving a transfer changes (R33 to R35). -/

namespace Sys2Proof.Machine

/-! ### The address map -/

@[simp] theorem locate_cmd (nw : Nat) : locate nw cmdOffset = .cmd := rfl

@[simp] theorem locate_status (nw : Nat) : locate nw statusOffset = .status := rfl

/-- Word `j` of register `r` stands at its offset (20_memory.md R32). -/
theorem locate_wordOffset {nw j : Nat} (r : RegName) (hj : j < nw) :
    locate nw (wordOffset nw r j) = .data r j := by
  have hr := r.index_lt
  have hm : r.index * regBytes nw + 4 * j < 9 * regBytes nw := by
    unfold regBytes
    have : (r.index + 1) * (4 * nw) ≤ 9 * (4 * nw) := Nat.mul_le_mul_right _ hr
    rw [Nat.succ_mul] at this
    omega
  have e : wordOffset nw r j - 0x100 = 4 * j + regBytes nw * r.index := by
    unfold wordOffset; rw [Nat.mul_comm r.index]; omega
  have hpos : 0 < regBytes nw := by unfold regBytes; omega
  have hlt : 4 * j < regBytes nw := by unfold regBytes; omega
  unfold locate
  rw [if_neg (by unfold wordOffset cmdOffset; omega), if_neg (by unfold wordOffset statusOffset; omega),
    if_pos ⟨by unfold wordOffset; omega, by unfold wordOffset dataEnd; omega⟩, e,
    Nat.add_mul_div_left _ _ hpos, Nat.div_eq_of_lt hlt, Nat.zero_add, RegName.ofIndex_index]
  simp only [Location.data.injEq, true_and]
  rw [Nat.add_mul_mod_self_left, Nat.mod_eq_of_lt hlt]
  omega

/-- Every aligned offset that the map gives to a register word is that word's offset. -/
theorem locate_data {nw off j : Nat} {r : RegName} (h : locate nw off = .data r j) (h4 : off % 4 = 0) :
    off = wordOffset nw r j ∧ j < nw := by
  unfold locate at h
  split at h
  · cases h
  split at h
  · cases h
  split at h
  · rename_i hr
    split at h
    · rename_i r' hi
      simp only [Location.data.injEq] at h
      obtain ⟨rfl, rfl⟩ := h
      have hidx := RegName.index_of_ofIndex hi
      have hpos : 0 < nw := by
        rcases Nat.eq_zero_or_pos nw with rfl | h
        · simp [dataEnd, regBytes] at hr; omega
        · exact h
      have hb : 0 < regBytes nw := by unfold regBytes; omega
      have hd := Nat.div_add_mod (off - 0x100) (regBytes nw)
      have hm := Nat.mod_lt (off - 0x100) hb
      have h4m : (off - 0x100) % regBytes nw % 4 = 0 := by
        unfold regBytes; rw [Nat.mod_mul_right_mod]; omega
      constructor
      · unfold wordOffset
        rw [hidx, Nat.mul_comm _ (regBytes nw)]
        omega
      · have : (off - 0x100) % regBytes nw < 4 * nw := hm
        omega
    · cases h
  · cases h

/-- The nine registers fit the window. -/
theorem wordOffset_lt_dataEnd {nw j : Nat} (r : RegName) (hj : j < nw) : wordOffset nw r j < dataEnd nw := by
  have hr := r.index_lt
  have : (r.index + 1) * (4 * nw) ≤ 9 * (4 * nw) := Nat.mul_le_mul_right _ hr
  rw [Nat.succ_mul] at this
  unfold wordOffset dataEnd regBytes
  omega

/-- The window holds everything the map names (20_memory.md R31). -/
theorem dataEnd_le_windowSize (nw : Nat) : dataEnd nw ≤ windowSize nw := by
  have h : dataEnd nw - 1 < 2 ^ (Nat.log2 (dataEnd nw - 1) + 1) := Nat.lt_log2_self
  unfold windowSize
  omega

theorem admitted_iff {nw off size : Nat} :
    admitted nw off size = true ↔ size = 4 ∧ off % 4 = 0 ∧ off < windowSize nw := by
  simp [admitted, and_assoc]

/-- The port admits every word transfer at `CMD` (20_memory.md R31, R35). -/
theorem admitted_cmd (nw : Nat) : admitted nw cmdOffset 4 = true :=
  admitted_iff.mpr ⟨rfl, rfl, by unfold windowSize cmdOffset; positivity⟩

/-! ### Writes -/

/-- What an admitted write can do (20_memory.md R34). -/
theorem State.writeWord_cases (s : State) (off : Nat) (v : Word) :
    s.writeWord off v = s ∨
    (s.status.busy = true ∧ s.writeWord off v = s.dropWrite) ∨
    (s.status.busy = false ∧ locate s.nw off = .cmd ∧ s.writeWord off v = s.accept v) ∨
    (s.status.busy = false ∧ ∃ r j, locate s.nw off = .data r j ∧ r.hostWritable = true ∧
      s.writeWord off v = { s with regs := s.regs.set r ((s.regs.get r).set j v) }) := by
  unfold State.writeWord
  cases hl : locate s.nw off with
  | cmd =>
    cases hb : s.status.busy <;> simp [State.writeCmd, hb]
  | status => exact .inl rfl
  | data r j =>
    cases hw : r.hostWritable with
    | false => exact .inl (by simp [State.writeReg, hw])
    | true =>
      cases hb : s.status.busy with
      | true => exact .inr (.inl ⟨rfl, by simp [State.writeReg, hw, hb]⟩)
      | false => exact .inr (.inr (.inr ⟨rfl, r, j, rfl, hw, by simp [State.writeReg, hw, hb]⟩))
  | reserved => exact .inl rfl

/-- What serving a transfer can do, but for the port's answer (20_memory.md R33 to R35). -/
theorem State.serve_cases (s : State) (t : Transfer) :
    ∃ s' ρ, s.serve t = { s' with reply := ρ } ∧
      (s' = s ∨ (s.status.busy = true ∧ s' = s.dropWrite) ∨
        (s.status.busy = false ∧ ∃ off v, t = .write off 4 v ∧ admitted s.nw off 4 = true ∧
          ((locate s.nw off = .cmd ∧ s' = s.accept v) ∨
            ∃ r j, locate s.nw off = .data r j ∧ r.hostWritable = true ∧
              s' = { s with regs := s.regs.set r ((s.regs.get r).set j v) }))) := by
  cases t with
  | read off size =>
    unfold State.serve
    simp only
    split
    · exact ⟨s, _, rfl, .inl rfl⟩
    · exact ⟨s, _, rfl, .inl rfl⟩
  | write off size v =>
    unfold State.serve
    simp only
    split
    · rename_i ha
      have hs := (admitted_iff.mp ha).1
      subst hs
      refine ⟨_, _, rfl, ?_⟩
      rcases State.writeWord_cases s off v with h | ⟨hb, h⟩ | ⟨hb, hl, h⟩ | ⟨hb, r, j, hl, hw, h⟩
      · exact .inl h
      · exact .inr (.inl ⟨hb, h⟩)
      · exact .inr (.inr ⟨hb, off, v, rfl, ha, .inl ⟨hl, h⟩⟩)
      · exact .inr (.inr ⟨hb, off, v, rfl, ha, .inr ⟨r, j, hl, hw, h⟩⟩)
    · exact ⟨s, _, rfl, .inl rfl⟩

end Sys2Proof.Machine
end

