-- ==== Sys2Proof/Laws/HostSoftware.lean ====
section
/-! SUPPORT. What the conversions of the data flow and the negation in decrypt answer (43_host_software_context.md R90,
R101). -/

namespace Sys2Proof.Machine

/-- Values that come from natural numbers come back. -/
theorem toValues_map_cast (vs : List Nat) : toValues (vs.map (Nat.cast : Nat → Int)) = .ok vs := by
  induction vs with
  | nil => rfl
  | cons v vs ih => simp [toValues, ih]

theorem toByte_toNat (b : BitVec 8) : toByte b.toNat = .ok b := by
  have e : BitVec.ofNat 8 b.toNat = b := by simp
  rw [toByte, if_pos b.isLt, e]

/-- Digits that are the values of bytes come back. -/
theorem toBytes_map_toNat (bs : List (BitVec 8)) : toBytes (bs.map BitVec.toNat) = .ok bs := by
  induction bs with
  | nil => rfl
  | cons b bs ih => simp [toBytes, toByte_toNat, ih]

/-- When a buffer becomes points, and what these are. -/
theorem pointsOfBuffer_eq_ok {bytes : List (BitVec 8)} {g : Nat} {ms : List Point} :
    pointsOfBuffer bytes g = .ok ms ↔ codecSymmetric bytes g = true ∧ ms = generatePoints (fromDigits bytes g) := by
  unfold pointsOfBuffer
  split
  · rename_i h
    simp only [h, true_and, Except.ok.injEq]
    exact eq_comm
  · simp_all

/-- What a symmetric buffer promises. -/
theorem codecSymmetric_iff {bytes : List (BitVec 8)} {g : Nat} :
    codecSymmetric bytes g = true ↔ (bytes ≠ [] ∧ 1 ≤ g) ∧
      toDigits false (fromDigits bytes g) = (bytes ++ paddingOf bytes g).map BitVec.toNat := by
  simp [codecSymmetric]

theorem liftEngine_eq_ok {α : Type} {r : Except CmdError α} {v : α} : liftEngine r = .ok v ↔ r = .ok v := by
  cases r <;> simp [liftEngine]

@[simp] theorem negateAs_x (form : NegationForm) (p : Int) (S : Point) : (negateAs form p S).x = S.x := by
  cases form <;> rfl

/-- Either form has the residue of `-Sy` (43 R101). -/
theorem negateAs_y_modEq (form : NegationForm) (p : Int) (S : Point) : (negateAs form p S).y ≡ -S.y [ZMOD p] := by
  cases form with
  | raw => rfl
  | canonical =>
    simp only [negateAs, negateCanonical]
    split
    · simp_all
    · exact Int.modEq_iff_dvd.mpr ⟨-1, by ring⟩

/-- Only `O` is negated to `O` (43 R101), for canonical points. -/
theorem negateAs_eq_identity {form : NegationForm} {p : Int} {S : Point} (h : S.Canonical p) :
    negateAs form p S = Point.identity ↔ S = Point.identity := by
  obtain ⟨x, y⟩ := S
  obtain ⟨-, -, h2⟩ := h
  simp only at h2
  cases form <;> simp only [negateAs, negateRaw, negateCanonical, Point.identity, Point.mk.injEq]
  · simp
  · split <;> omega

end Sys2Proof.Machine
end

