-- ==== Sys2Proof/Laws/PerInstr.lean ====
section
/-! SUPPORT. Statements made per instruction. `Encoding`: the command word of an instruction has the format of
30_encoding.md R50 and an opcode of its group's range (30_encoding.md section 2). -/

namespace Sys2Proof.Laws.Encoding

/-- The command word has a zero field above its opcode, the instruction is well formed, and its opcode lies in the range
of its group. -/
def Statement (i : Instr) : Prop :=
  i.wf = true ∧ commandFormatOk (encode i) = true ∧ opcodeField (encode i) = opcodeOf i ∧
    match i with
    | .fred => 0x01 ≤ (opcodeOf i).toNat ∧ (opcodeOf i).toNat ≤ 0x0F
    | .finv => 0x01 ≤ (opcodeOf i).toNat ∧ (opcodeOf i).toNat ≤ 0x0F
    | .padd => 0x10 ≤ (opcodeOf i).toNat ∧ (opcodeOf i).toNat ≤ 0x1F
    | .pdbl => 0x10 ≤ (opcodeOf i).toNat ∧ (opcodeOf i).toNat ≤ 0x1F
    | .pmul => 0x10 ≤ (opcodeOf i).toNat ∧ (opcodeOf i).toNat ≤ 0x1F

theorem fred : Statement .fred := by unfold Statement; decide

theorem finv : Statement .finv := by unfold Statement; decide

theorem padd : Statement .padd := by unfold Statement; decide

theorem pdbl : Statement .pdbl := by unfold Statement; decide

theorem pmul : Statement .pmul := by unfold Statement; decide

end Sys2Proof.Laws.Encoding
end

