-- ==== Sys2Proof/Laws/Step.lean ====
section
/-! SUPPORT. What one step can do, said once. -/

namespace Sys2Proof.Machine

/-- What the engine's completion step can do (10_state.md R18, R19). -/
theorem State.completeStep_cases (s : State) :
    ∃ t, s.completeStep = .next t ∧
      ((s.status.busy = false ∧ t = s) ∨
        (s.status.busy = true ∧
          ((∃ e, t = s.raise e) ∨
            (2 ≤ s.value .rp ∧ ∃ v, (0 ≤ v ∧ v < s.value .rp) ∧ t = s.commitX v) ∨
            (2 ≤ s.value .rp ∧ ∃ q, t = s.commitPoint q)))) := by
  unfold State.completeStep
  cases hb : s.status.busy with
  | false => exact ⟨s, by simp, .inl ⟨rfl, rfl⟩⟩
  | true =>
    simp only [if_true]
    cases hd : decode s.op with
    | error _ => exact ⟨_, rfl, .inr ⟨trivial, .inl ⟨_, rfl⟩⟩⟩
    | ok i =>
      obtain ⟨t, ht, h⟩ := exec_cases i s
      refine ⟨t, ht, .inr ⟨trivial, ?_⟩⟩
      rcases h with ⟨e, _, h⟩ | ⟨hp, v, hv, _, h⟩ | ⟨hp, q, _, h⟩
      · exact .inl ⟨e, h⟩
      · exact .inr (.inl ⟨hp, v, hv, h⟩)
      · exact .inr (.inr ⟨hp, q, h⟩)

/-- What the engine's work on a PMUL can do. -/
theorem State.pmulWork_cases (s : State) :
    (∃ e, s.pmulWork = s.raise e) ∨
      (2 ≤ s.value .rp ∧ ∃ l, s.pmulWork = { s with loop := l } ∧ l.live = true ∧
        ((s.pmulLoop.s = 0 ∧ l = s.pmulLoop) ∨
          (s.pmulLoop.s ≠ 0 ∧ s.pmulLoop.iterate (s.value .ra) (s.value .rp) = .ok l))) := by
  unfold State.pmulWork
  by_cases hp : s.value .rp < 2
  · exact .inl ⟨_, State.withModulus_small hp⟩
  rw [State.withModulus_go (not_lt.mp hp)]
  by_cases h0 : s.pmulLoop.s = 0
  · exact .inr ⟨not_lt.mp hp, _, by rw [if_pos h0], s.pmulLoop_live, .inl ⟨h0, rfl⟩⟩
  · rw [if_neg h0]
    cases hi : s.pmulLoop.iterate (s.value .ra) (s.value .rp) with
    | error e => exact .inl ⟨e, rfl⟩
    | ok l => exact .inr ⟨not_lt.mp hp, l, rfl, iterate_live hi, .inr ⟨h0, rfl⟩⟩

/-- What the engine's working step can do (70 R140). -/
theorem State.workStep_cases (s : State) :
    s.workStep = s ∨
      (s.status.busy = true ∧ decode s.op = .ok .pmul ∧ s.workStep = s.pmulWork) := by
  unfold State.workStep
  cases hb : s.status.busy with
  | false => exact .inl (by simp)
  | true =>
    simp only [if_true]
    unfold State.engineWork
    cases hd : decode s.op with
    | error _ => exact .inl rfl
    | ok i =>
      cases i with
      | pmul => exact .inr ⟨trivial, rfl, rfl⟩
      | fred => exact .inl rfl
      | finv => exact .inl rfl
      | padd => exact .inl rfl
      | pdbl => exact .inl rfl

/-! ### A step, by the next event -/

theorem step_nil {s : State} (h : s.agenda = []) : step s = s.completeStep := by simp [step, h]

theorem step_host {s : State} {t : Transfer} {rest : List Event} (h : s.agenda = .host t :: rest) :
    step s = .next (State.serve t { s with agenda := rest }) := by simp [step, h]

theorem step_reset {s : State} {rest : List Event} (h : s.agenda = .reset :: rest) :
    step s = .next (State.applyReset { s with agenda := rest }) := by simp [step, h]

theorem step_work {s : State} {rest : List Event} (h : s.agenda = .work :: rest) :
    step s = .next (State.workStep { s with agenda := rest }) := by simp [step, h]

theorem step_complete {s : State} {rest : List Event} (h : s.agenda = .complete :: rest) :
    step s = State.completeStep { s with agenda := rest } := by simp [step, h]

/-- The host's write of `CMD` (10_state.md R17). -/
theorem step_writeCmd {s : State} {c : Word} {rest : List Event}
    (h : s.agenda = .host (.write cmdOffset 4 c) :: rest) :
    step s = .next { State.writeCmd c { s with agenda := rest } with reply := .write false } := by
  rw [step_host h]
  simp only [State.serve, admitted_cmd, if_true, State.writeWord, locate_cmd]

/-! ### Runs -/

theorem core_run_zero (s : State) : Sys2Proof.core.run 0 s = .next s := rfl

theorem core_run_succ {s t : State} (h : step s = .next t) (n : Nat) :
    Sys2Proof.core.run (n + 1) s = Sys2Proof.core.run n t := by
  have h' : Sys2Proof.core.step s = .next t := h
  simp only [Host.Core.run, h']

end Sys2Proof.Machine
end

