-- ==== Sys2Proof/Tests/Slice0.lean ====
section
/-! SUPPORT. Tests on small states, with expected results from spec/30_encoding.md and spec/95_test_vectors.md, and a
witness for the hypotheses of each obligation. -/

namespace Sys2Proof.Tests

open Sys2Proof Sys2Proof.Machine

/-! ### Decoding: words written out from 30_encoding.md R50 and R52 -/

theorem test_decode_fred : decode 0b00000000000000000000000000000001#32 = .ok .fred := by decide
theorem test_decode_finv : decode 0b00000000000000000000000000000010#32 = .ok .finv := by decide
theorem test_decode_padd : decode 0b00000000000000000000000000010000#32 = .ok .padd := by decide
theorem test_decode_pdbl : decode 0b00000000000000000000000000010001#32 = .ok .pdbl := by decide
theorem test_decode_pmul : decode 0b00000000000000000000000000010010#32 = .ok .pmul := by decide

/-- Vectors V-E3 to V-E6 of 95_test_vectors.md: illegal words. -/
theorem test_decode_illegal :
    decode 0x00000000#32 = .error .unassignedOpcode ∧ decode 0x00000003#32 = .error .unassignedOpcode ∧
      decode 0x00000110#32 = .error .zeroFieldNotZero ∧ decode 0xFFFFFFFF#32 = .error .zeroFieldNotZero := by decide

theorem test_decodeTableWord :
    decodeTableWord 32 0x12 = some .pmul ∧ decodeTableWord 8 0x01 = some .fred ∧ decodeTableWord 32 0x13 = none := by
  decide

/-! ### Well-formedness -/

/-- 30_encoding.md R50: bits 31:8 are zero. -/
theorem test_wf_commandFormat : commandFormatOk 0x00000010#32 = true ∧ commandFormatOk 0x00000110#32 = false := by decide

/-- 00_scope.md R4: the width is a multiple of 32 and at least 32. -/
theorem test_wf_width :
    Config.widthOk 32 = true ∧ Config.widthOk 256 = true ∧ Config.widthOk 0 = false ∧ Config.widthOk 48 = false := by
  decide

/-- 30_encoding.md R55, 93_implementation_defined.md I6: a value that does not fit its register. -/
theorem test_wf_hostLine :
    HostLine.wf 1 (.wr .x1 2147483647) = true ∧ HostLine.wf 1 (.wr .x1 2147483648) = false ∧
      HostLine.wf 1 (.wr .k 4294967295) = true ∧ HostLine.wf 1 (.wr .k (-1)) = false := by decide

/-! ### Small states (W = 32) -/

/-- An idle engine with these operands. -/
def tiny (rp ra x1 y1 x2 y2 k : Int) : State :=
  let w := tcPattern 1
  { State.resetOf 1 with
    regs := { rp := w rp, ra := w ra, x1 := w x1, y1 := w y1, x2 := w x2, y2 := w y2, k := w k, xr := w 6, yr := w 3 } }

/-- One step that runs command `i`: `XR`, `YR` and `STATUS` after it. -/
def tinyRun (i : Instr) (s : State) : Option (Int × Int × Word) :=
  match step (s.withFetchWord 32 (encode i).toNat) with
  | .next t => some (t.value .xr, t.value .yr, t.status.word)
  | .fault _ => none
  | .refused _ => none

/-! ### Commands: vectors of 95_test_vectors.md section 2 -/

/-- V-R12. -/
theorem test_fred_negative : tinyRun .fred (tiny 17 2 (-100) 1 0 0 0) = some (2, 3, 0x02#32) := by decide
/-- V-R16. -/
theorem test_fred_modulus_one : tinyRun .fred (tiny 1 2 5 1 0 0 0) = some (6, 3, 0x26#32) := by decide
/-- V-I8. -/
theorem test_finv_negative : tinyRun .finv (tiny 17 2 (-3) 1 0 0 0) = some (11, 3, 0x02#32) := by decide
/-- V-I20: zero is tested before the gcd. -/
theorem test_finv_zero : tinyRun .finv (tiny 15 2 0 1 0 0 0) = some (6, 3, 0x36#32) := by decide
/-- V-A16. -/
theorem test_padd_raw_operand : tinyRun .padd (tiny 17 2 5 (-16) 6 3 0) = some (10, 6, 0x02#32) := by decide
/-- V-A8: a raw copy. -/
theorem test_padd_raw_copy : tinyRun .padd (tiny 17 2 0 0 5 (-1) 0) = some (5, -1, 0x02#32) := by decide
/-- V-D4, and V-D8: operand 2 and the scalar are not read. -/
theorem test_pdbl_raw_operand : tinyRun .pdbl (tiny 17 2 22 18 9 9 77) = some (6, 3, 0x02#32) := by decide
/-- V-D9. -/
theorem test_pdbl_nonInvertible : tinyRun .pdbl (tiny 15 2 1 3 0 0 0) = some (6, 3, 0x46#32) := by decide
/-- V-M5. -/
theorem test_pmul_five : tinyRun .pmul (tiny 17 2 5 1 0 0 5) = some (9, 16, 0x02#32) := by decide
/-- V-M21: the doubling at the last bit raises. -/
theorem test_pmul_last_doubling : tinyRun .pmul (tiny 15 2 1 3 0 0 1) = some (6, 3, 0x46#32) := by decide

/-- 10_state.md R17: what stands before the step that runs the word. -/
theorem test_withFetchWord :
    (State.reset.withFetchWord 32 0x10).op = 0x10#32 ∧ (State.reset.withFetchWord 32 0x10).status.word = 0x01#32 := by
  decide

/-! ### The bus: vectors of 95_test_vectors.md sections 2.6 and 2.7 -/

/-- The state after one transfer. -/
def tinyServe (t : Transfer) (s : State) : State := State.serve t s

/-- V-B1 and V-B2. -/
theorem test_bus_write_words :
    (tinyServe (.write 0x108 4 0xFFFFFF9C#32) (tiny 0 0 0 0 0 0 0)).value .x1 = -100 ∧
      (tinyServe (.write 0x118 4 0xFFFFFFFF#32) (tiny 0 0 0 0 0 0 0)).value .k = 4294967295 := by decide

/-- V-B6 and V-B7: word 7 and word 1 of `X1` at W = 256. -/
theorem test_bus_write_w256 :
    (tinyServe (.write 0x15C 4 0x80000000#32) State.reset).value .x1 = -2 ^ 255 ∧
      (tinyServe (.write 0x144 4 0x00000001#32) State.reset).value .x1 = 2 ^ 32 := by decide

/-- V-B11 and V-B12: refused transfers. -/
theorem test_bus_refused :
    (tinyServe (.write 0x109 4 7#32) (tiny 17 2 5 1 0 0 0)).regs = (tiny 17 2 5 1 0 0 0).regs ∧
      (tinyServe (.read 0x108 8) (tiny 17 2 5 1 0 0 0)).reply = .read 0#32 true ∧
      (tinyServe (.read 0x200 4) (tiny 17 2 5 1 0 0 0)).reply = .read 0#32 true := by decide

/-- V-B13: reserved, inside the window. -/
theorem test_bus_reserved : (tinyServe (.read 0x124 4) (tiny 17 2 5 1 0 0 0)).reply = .read 0#32 false := by decide

/-- V-E10 and V-E12: a busy engine drops a write of `X1` and ignores one of `XR`. -/
theorem test_bus_busy :
    (tinyServe (.write 0x108 4 9#32) ((tiny 17 2 5 1 0 0 5).accept 0x12#32)).status.word = 0x09#32 ∧
      (tinyServe (.write 0x108 4 9#32) ((tiny 17 2 5 1 0 0 5).accept 0x12#32)).value .x1 = 5 ∧
      (tinyServe (.write 0x11C 4 7#32) ((tiny 17 2 5 1 0 0 5).accept 0x12#32)).status.word = 0x01#32 := by decide

/-- 43_host_software_context.md R91: the codec's chunks and the appended sentinel. -/
theorem test_fromDigits : fromDigits [104#8, 101#8, 108#8] 2 = [104 * 65536 + 101, 108] ∧ fromDigits [7#8] 1 = [7, 32] := by
  decide

/-- Items N13 and N14 of 91_not_in_source.md: both readings of the group-size count and of `toDigits`; 104 is `h`. -/
theorem test_toDigits :
    toDigits false [104 * 65536 + 101, 32] = [104, 101, 32] ∧ toDigits true [104 * 65536 + 101, 32] = [104, 101, 0, 32, 0] ∧
      groupSize false (7 * 65536 ^ 2 + 5) = 2 ∧ groupSize true (7 * 65536 ^ 2 + 5) = 1 := by decide

/-- Program P2 of 95_test_vectors.md: loading `(6, -3)` or `(6, 14)` for `-S` decrypts the same (43 R101). -/
theorem test_negation_forms :
    sessionDecrypt .raw 2 17 7 ⟨10, 6⟩ [⟨10, 4⟩, ⟨0, 3⟩, ⟨9, 2⟩] = .ok [⟨3, 4⟩, ⟨12, 9⟩, ⟨1, 0⟩] ∧
      sessionDecrypt .canonical 2 17 7 ⟨10, 6⟩ [⟨10, 4⟩, ⟨0, 3⟩, ⟨9, 2⟩] = .ok [⟨3, 4⟩, ⟨12, 9⟩, ⟨1, 0⟩] := by decide

/-- 43_host_software_context.md R104: what is no buffer of the codec. -/
theorem test_encodingMismatch :
    bufferOfPoints false [⟨-1, 2⟩] = .error .encodingMismatch ∧ bufferOfPoints false [⟨256, 2⟩] = .error .encodingMismatch ∧
      pointsOfBuffer [0#8, 7#8] 2 = .error .encodingMismatch ∧ pointsOfBuffer [7#8] 0 = .error .encodingMismatch ∧
      bufferOfPoints false [⟨104, 32⟩] = .ok [104#8, 32#8] := by decide

/-! ### Witnesses: what the invariant asks -/

theorem inv_tiny (rp ra x1 y1 x2 y2 k : Int) : (tiny rp ra x1 y1 x2 y2 k).Inv :=
  { width := le_refl 1
    regs := fun r => by cases r <;> simp [tiny, Regs.get, State.resetOf]
    exclusive := by simp [tiny, State.resetOf, Status.zero]
    errDone := by simp [tiny, State.resetOf, Status.zero]
    errcodeErr := by simp [tiny, State.resetOf, Status.zero]
    errcodeRange := by simp [tiny, State.resetOf, Status.zero]
    loopLive := by simp [tiny, State.resetOf, PmulLoop.idle]
    loopDead := fun _ => rfl }

theorem inv_agenda {s : State} (h : s.Inv) (es : List Event) : ({ s with agenda := es } : State).Inv :=
  ⟨h.width, h.regs, h.exclusive, h.errDone, h.errcodeErr, h.errcodeRange, h.loopLive, h.loopDead⟩

theorem inv_accept {s : State} (h : s.Inv) (c : Word) : (s.accept c).Inv :=
  { width := h.width
    regs := h.regs
    exclusive := by simp [State.accept, Status.accepted]
    errDone := by simp [State.accept, Status.accepted]
    errcodeErr := by simp [State.accept, Status.accepted]
    errcodeRange := by simp [State.accept, Status.accepted]
    loopLive := by simp [State.accept, PmulLoop.idle]
    loopDead := fun _ => rfl }

/-- A PMUL after the first iteration of the trace of V-M5. -/
def midway : State :=
  { (tiny 17 2 5 1 0 0 5).accept 0x12#32 with loop := { live := true, t := ⟨5, 1⟩, d := ⟨6, 3⟩, s := 2 } }

theorem inv_midway : midway.Inv :=
  let h := inv_accept (inv_tiny 17 2 5 1 0 0 5) 0x12#32
  ⟨h.width, h.regs, h.exclusive, h.errDone, h.errcodeErr, h.errcodeRange, fun _ => by decide, fun h => by cases h⟩

theorem onTrack_midway : midway.LoopOnTrack := fun _ => ⟨1, by decide⟩

/-! ### Witnesses: the hypotheses of each obligation, met together

Each theorem is named after the obligation whose hypotheses it meets, clause by clause, at boundary values; for every state
`tiny …`, `inv_tiny` gives `Inv`. -/

/-- An idle engine with this agenda. -/
def idleWith (es : List Event) : State := { tiny 17 2 5 1 6 3 5 with agenda := es }

/-- A busy engine, the command word `c` latched, with this agenda. -/
def busyWith (c : Word) (es : List Event) : State := { (tiny 17 2 5 1 6 3 5).accept c with agenda := es }

theorem inv_idleWith (es : List Event) : (idleWith es).Inv := inv_agenda (inv_tiny ..) es

theorem inv_busyWith (c : Word) (es : List Event) : (busyWith c es).Inv := inv_agenda (inv_accept (inv_tiny ..) c) es

theorem onTrack_busyWith (c : Word) (es : List Event) : (busyWith c es).LoopOnTrack := fun h => by cases h

theorem witness_DecodeAndEncodeAgree :
    Instr.wf .pmul = true ∧ decode 0x00000001#32 = .ok .fred ∧ decode 0x00000012#32 = .ok .pmul := by decide

/-- One word for each way to be illegal, at the smallest and the largest value of the field. -/
theorem witness_IllegalWordCompletesWithIllegalCommand :
    (∀ w ∈ [0x00000110#32, 0x80000001#32, 0xFFFFFFFF#32], w.extractLsb' 8 24 ≠ 0#24) ∧
    (∀ w ∈ [0x00000000#32, 0x00000003#32, 0x0000000F#32, 0x00000013#32, 0x000000FF#32],
      (w.extractLsb' 0 8).toNat ∉ [0x01, 0x02, 0x10, 0x11, 0x12]) ∧
    (idleWith [.host (.write 0x000 4 0x110#32), .complete]).status.busy = false := by
  refine ⟨?_, ?_, rfl⟩
  · simp
  · simp

/-- The least and the greatest value of a signed register and of `K` at W = 32. -/
theorem witness_RegisterValuesAndWrites :
    (tiny 17 2 5 1 6 3 5).Inv ∧ (RegName.x1 ≠ .k ∧ RegName.ra ≠ .x1) ∧
    (-(2 : Int) ^ (32 * 1 - 1) ≤ -2147483648 ∧ (-2147483648 : Int) < 2 ^ (32 * 1 - 1)) ∧
    (-(2 : Int) ^ (32 * 1 - 1) ≤ 2147483647 ∧ (2147483647 : Int) < 2 ^ (32 * 1 - 1)) ∧
    ((0 : Int) < 2 ^ (32 * 1)) ∧ ((4294967295 : Int) < 2 ^ (32 * 1)) := ⟨inv_tiny .., by decide⟩

theorem witness_EqualValuesAreEqualPatterns :
    [0xFFFFFFFF#32, 0x80000000#32].length = 2 ∧ [0#32, 0x80000000#32].length = 2 := by decide

/-- The first word of `RP` and the last of `YR`, at W = 256. -/
theorem witness_AddressMapOfTheRegisterWords :
    locate 8 0x100 = .data .rp 0 ∧ locate 8 0x21C = .data .yr 7 ∧ 0x100 % 4 = 0 ∧ 0x21C % 4 = 0 := by decide

theorem witness_WindowIsTheSmallestPowerOfTwo : 0x100 + 9 * (4 * 1) ≤ 2 ^ 9 ∧ 0x100 + 9 * (4 * 8) ≤ 2 ^ 10 := by decide

/-- `CMD`, `STATUS`, the first reserved word, the first and the last data word, and the reserved words after them. -/
theorem witness_BusReadReturnsTheWindowWord :
    ∀ off ∈ [0x000, 0x004, 0x008, 0x0FC, 0x100, 0x120, 0x124, 0x1FC],
      (idleWith [.host (.read off 4)]).Inv ∧ (idleWith [.host (.read off 4)]).agenda = .host (.read off 4) :: [] ∧
        off % 4 = 0 ∧ off < windowSize 1 := by
  intro off h
  exact ⟨inv_idleWith _, rfl, by revert off; decide⟩

/-- The same offsets and the last host-writable word, on an idle and on a busy engine. -/
theorem witness_BusWriteUpdatesTheWindow :
    ∀ off ∈ [0x000, 0x004, 0x008, 0x0FC, 0x100, 0x118, 0x11C, 0x120, 0x124, 0x1FC],
      (off % 4 = 0 ∧ off < windowSize 1) ∧
      ((idleWith [.host (.write off 4 7#32)]).Inv ∧ (idleWith [.host (.write off 4 7#32)]).status.busy = false) ∧
      ((busyWith 0x12#32 [.host (.write off 4 7#32)]).Inv ∧
        (busyWith 0x12#32 [.host (.write off 4 7#32)]).status.busy = true) := by
  intro off h
  exact ⟨by revert off; decide, ⟨inv_idleWith _, rfl⟩, ⟨inv_busyWith _ _, rfl⟩⟩

theorem witness_WindowReadAfterWrite :
    (idleWith []).Inv ∧ (idleWith []).status.busy = false ∧
      (locate (idleWith []).nw 0x100 = .data .rp 0 ∧ RegName.hostWritable .rp = true) ∧
      (locate (idleWith []).nw 0x118 = .data .k 0 ∧ RegName.hostWritable .k = true) ∧
      0x118 % 4 = 0 ∧ 0x11C % 4 = 0 ∧ 0x11C ≠ 0x118 := ⟨inv_idleWith _, by decide⟩

/-- At W = 32: the line `WR X1, -2147483648`, the line `WR K, 4294967295` and the line `RD XR`. -/
theorem witness_WriteAndReadLines :
    (∀ l ∈ [HostLine.wr .x1 (-2147483648), .wr .k 4294967295, .rd .xr], (idleWith (l.events 1 ++ [])).Inv ∧
      (idleWith (l.events 1 ++ [])).agenda = l.events (idleWith (l.events 1 ++ [])).nw ++ []) ∧
    representable 1 .x1 (-2147483648) = true ∧ representable 1 .k 4294967295 = true ∧
    RegName.hostWritable .x1 = true ∧ RegName.hostWritable .k = true := ⟨fun _ _ => ⟨inv_idleWith _, rfl⟩, by decide⟩

/-- Sizes below and above 4, offsets just off a multiple of 4, and the first offset past the window. -/
theorem witness_RefusedTransferChangesNothing :
    (∀ size ∈ [0, 1, 2, 3, 5, 8], size ≠ 4) ∧ (∀ off ∈ [0x001, 0x0FF, 0x109], off % 4 ≠ 0) ∧ windowSize 1 ≤ 0x200 ∧
      (idleWith [.host (.read 0x108 8)]).agenda = .host (.read 0x108 8) :: [] := by decide

theorem witness_CommandWriteAcceptedIffIdle :
    ((idleWith [.host (.write 0x000 4 0x10#32)]).Inv ∧ (busyWith 0x12#32 [.host (.write 0x000 4 0x10#32)]).Inv) ∧
      (idleWith [.host (.write 0x000 4 0x10#32)]).status.busy = false ∧
      (busyWith 0x12#32 [.host (.write 0x000 4 0x10#32)]).status.busy = true ∧
      (idleWith [.host (.read 0x000 4)]).agenda = .host (.read 0x000 4) :: [] :=
  ⟨⟨inv_idleWith _, inv_busyWith _ _⟩, by decide⟩

/-- `CMD` and the first and last host-writable data word. -/
theorem witness_BusyEngineDropsHostWrites :
    (busyWith 0x12#32 [.host (.write 0x118 4 7#32)]).status.busy = true ∧
      ∀ off ∈ [0x000, 0x100, 0x118], Event.writesEngine 1 (.host (.write off 4 7#32)) = true := by decide

theorem witness_OverrunOnlyFromADroppedWrite :
    ∃ t, step (busyWith 0x12#32 [.host (.write 0x118 4 7#32)]) = .next t ∧
      (busyWith 0x12#32 [.host (.write 0x118 4 7#32)]).status.ovr = false ∧ t.status.ovr = true := ⟨_, rfl, by decide⟩

theorem witness_TruncatedRemainderLaws : (1 : Int) ≤ 1 ∧ ((2 : Int) ≤ 2 ∧ |(-1 : Int)| < 2 ∧ (-1 : Int) ≡ 7 [ZMOD 2]) := by
  decide

theorem witness_ReductionIsTheLeastResidue :
    (2 : Int) ≤ 2 ∧ (0 ≤ (1 : Int) ∧ (1 : Int) < 2 ∧ (1 : Int) ≡ -3 [ZMOD 2]) ∧
      multiplyPoint ⟨5, -16⟩ 1 2 2 = .ok ⟨1, 0⟩ := by decide

/-- Modulus 15: a multiple, a non-unit, a unit; modulus 2: the least. -/
theorem witness_InverseIsTheUniqueInverse :
    (2 : Int) ≤ 2 ∧ red 15 15 = 0 ∧ (red 3 15 ≠ 0 ∧ Int.gcd (red 3 15) 15 ≠ 1) ∧
      (red 7 15 ≠ 0 ∧ Int.gcd (red 7 15) 15 = 1) ∧ (1 ≤ (13 : Int) ∧ (13 : Int) < 15 ∧ 13 * red 7 15 ≡ 1 [ZMOD 15]) ∧
      (Nat.Prime (2 : Int).toNat ∧ red 1 2 ≠ 0) := by
  refine ⟨by decide, by decide, by decide, by decide, by decide, ?_, by decide⟩
  exact Nat.prime_two

/-- The moduli 1 and 2 stand on the two sides of the test. -/
theorem witness_FredReducesX1 :
    ((tiny 1 2 5 1 6 3 5).Inv ∧ (tiny 1 2 5 1 6 3 5).value .rp < 2) ∧
      (tiny 2 2 5 1 6 3 5).Inv ∧ 2 ≤ (tiny 2 2 5 1 6 3 5).value .rp := ⟨⟨inv_tiny .., by decide⟩, inv_tiny .., by decide⟩

theorem witness_FinvInvertsX1 :
    (tiny 1 2 5 1 6 3 5).value .rp < 2 ∧ (tiny 15 2 (-15) 1 6 3 5).value .rp ∣ (tiny 15 2 (-15) 1 6 3 5).value .x1 ∧
      (¬(tiny 15 2 3 1 6 3 5).value .rp ∣ (tiny 15 2 3 1 6 3 5).value .x1 ∧
        Int.gcd ((tiny 15 2 3 1 6 3 5).value .x1) ((tiny 15 2 3 1 6 3 5).value .rp) ≠ 1) ∧
      Int.gcd ((tiny 15 2 7 1 6 3 5).value .x1) ((tiny 15 2 7 1 6 3 5).value .rp) = 1 := by decide

/-- The five cases of R70 and R71: V-A1, V-A2, V-A6, V-A25, V-A4. -/
theorem witness_PaddAddsTheOperands :
    (tiny 1 2 0 0 5 1 0).value .rp < 2 ∧ (tiny 17 2 0 0 5 1 0).point1 = ⟨0, 0⟩ ∧
      ((tiny 17 2 5 1 0 0 0).point1 ≠ ⟨0, 0⟩ ∧ (tiny 17 2 5 1 0 0 0).point2 = ⟨0, 0⟩) ∧
      ((tiny 17 2 5 1 5 16 0).point2 ≠ ⟨0, 0⟩ ∧ (17 : Int) ∣ 5 - 5) ∧
      ((tiny 15 2 1 1 4 2 0).point2 ≠ ⟨0, 0⟩ ∧ ¬(15 : Int) ∣ 4 - 1 ∧ Int.gcd (4 - 1) 15 ≠ 1) ∧
      ((tiny 17 2 5 1 6 3 0).point1 ≠ (tiny 17 2 5 1 6 3 0).point2 ∧ Int.gcd (6 - 5) 17 = 1) ∧
      ((tiny 17 2 5 1 5 1 0).point1 = (tiny 17 2 5 1 5 1 0).point2 ∧ Int.gcd (2 * 1) 17 = 1) := by decide

/-- V-D11, V-D2, V-D3, V-D9, V-D1. -/
theorem witness_PdblDoublesOperandOne :
    (tiny 0 2 5 1 0 0 0).value .rp < 2 ∧ (tiny 17 2 0 0 0 0 0).point1 = ⟨0, 0⟩ ∧
      ((tiny 17 2 3 0 0 0 0).point1 ≠ ⟨0, 0⟩ ∧ (17 : Int) ∣ 2 * 0) ∧
      ((tiny 15 2 1 3 0 0 0).point1 ≠ ⟨0, 0⟩ ∧ ¬(15 : Int) ∣ 2 * 3 ∧ Int.gcd (2 * 3) 15 ≠ 1) ∧
      ((tiny 17 2 5 1 0 0 0).point1 ≠ ⟨0, 0⟩ ∧ Int.gcd (2 * 1) 17 = 1) := by decide

theorem witness_PdblIsPaddOfEqualOperands : (tiny 17 2 5 1 5 1 0).point1 = (tiny 17 2 5 1 5 1 0).point2 := by decide

/-- Before the first iteration and after it; a composite modulus that raises (V-M21). -/
theorem witness_PmulMultipliesOperandOne :
    (midway.Inv ∧ midway.LoopOnTrack ∧ 2 ≤ midway.value .rp ∧ midway.loop.live = true) ∧
      (busyWith 0x12#32 []).Inv ∧ (busyWith 0x12#32 []).LoopOnTrack ∧ (tiny 1 2 5 1 0 0 5).value .rp < 2 ∧
      multiplyPoint midway.point1 midway.scalar (midway.value .ra) (midway.value .rp) = .ok ⟨9, 16⟩ ∧
      multiplyPoint ⟨1, 3⟩ 1 2 15 = .error .nonInvertible ∧ Nat.Prime (midway.value .rp).toNat := by
  refine ⟨⟨inv_midway, onTrack_midway, by decide, rfl⟩, inv_busyWith .., onTrack_busyWith _ _, by decide, by decide,
    by decide, ?_⟩
  have : (midway.value .rp).toNat = 17 := by decide
  rw [this]; norm_num

theorem witness_SmallModulusIsInvalid :
    (tiny 1 2 5 1 6 3 5).value .rp < 2 ∧ (tiny (-17) 2 5 1 6 3 5).value .rp < 2 ∧
      2 ≤ (tiny 2 2 5 1 6 3 5).value .rp ∧ (tiny 2 2 5 1 6 3 5).status.errcode = 0#4 := by decide

theorem witness_PrimeModulusRaisesNoNonInvertible :
    Nat.Prime ((idleWith []).value .rp).toNat ∧ (idleWith []).status.errcode = 0#4 := by
  refine ⟨?_, by decide⟩
  have : ((idleWith []).value .rp).toNat = 17 := by decide
  rw [this]; norm_num

/-- V-E6 as one step. -/
theorem witness_ErrorLeavesNoPartialEffect :
    ∃ t, step (busyWith 0xFFFFFFFF#32 [.complete]) = .next t ∧ (busyWith 0xFFFFFFFF#32 [.complete]).status.busy = true ∧
      (busyWith 0xFFFFFFFF#32 [.complete]).status.err = false ∧ t.status.err = true := ⟨_, rfl, by decide⟩

/-- A FRED, and a PADD that writes both result registers. -/
theorem witness_CompletionWritesTheResult :
    ((busyWith 0x10#32 [.complete]).Inv ∧ ∃ t, step (busyWith 0x10#32 [.complete]) = .next t ∧ t.status.busy = false ∧
      t.status.err = false ∧ t.result = ⟨10, 6⟩) ∧
    (busyWith 0x01#32 [.complete]).Inv ∧ ((busyWith 0x01#32 [.complete]).status.busy = true ∧
      (∀ rest, (busyWith 0x01#32 [.complete]).agenda ≠ .reset :: rest) ∧
      decode (busyWith 0x01#32 [.complete]).op = .ok .fred) ∧
      ∃ t, step (busyWith 0x01#32 [.complete]) = .next t ∧ t.status.busy = false ∧ t.status.err = false :=
  ⟨⟨inv_busyWith .., _, rfl, by decide⟩, inv_busyWith .., ⟨rfl, fun _ => nofun, by decide⟩, _, rfl, by decide⟩

/-- A busy engine before a reset; a modulus of 1, and the host's write that makes it 17. -/
theorem witness_ResetZeroesTheEngine :
    (busyWith 0x12#32 [.reset, .complete]).agenda = .reset :: [.complete] ∧ (tiny 1 2 5 1 6 3 5).value .rp < 2 ∧
      ∃ t, step { tiny 1 2 5 1 6 3 5 with agenda := [.host (.write 0x100 4 17#32)] } = .next t ∧ 2 ≤ t.value .rp :=
  ⟨rfl, by decide, _, rfl, by decide⟩

theorem witness_FirstCommandAfterReset :
    decode 0x10#32 = .ok .padd ∧ decode 0x00#32 = .error .unassignedOpcode := by decide

theorem witness_StepKeepsTheInvariant : midway.Inv ∧ ∃ t, step midway = .next t := ⟨inv_midway, _, rfl⟩

theorem witness_StepKeepsTheLoopOnTrack :
    midway.Inv ∧ midway.LoopOnTrack ∧ ∃ t, step { midway with agenda := [.work] } = .next t ∧ t.loop.live = true :=
  ⟨inv_midway, onTrack_midway, _, rfl, by decide⟩

/-- A changed operand: by the host's write and by reset. -/
theorem witness_OperandsChangeOnlyByIdleHostWrites :
    (∃ t, exec .pmul (idleWith []) = .next t) ∧
    (∃ t, step (idleWith [.host (.write 0x118 4 9#32)]) = .next t ∧ RegName.hostWritable .k = true ∧
      t.regs.get .k ≠ (idleWith [.host (.write 0x118 4 9#32)]).regs.get .k) ∧
    ∃ t, step (idleWith [.reset]) = .next t ∧ t.regs.get .rp ≠ (idleWith [.reset]).regs.get .rp :=
  ⟨⟨_, rfl⟩, ⟨_, rfl, by decide⟩, _, rfl, by decide⟩

theorem witness_ResultsChangeOnlyAtCompletion :
    ∃ t, step (busyWith 0x10#32 [.complete]) = .next t ∧
      t.regs.get .xr ≠ (busyWith 0x10#32 [.complete]).regs.get .xr := ⟨_, rfl, by decide⟩

theorem witness_ErrorStaysUntilTheNextCommand :
    (idleWith [.host (.write 0x000 4 0x10#32)]).status.busy = false ∧
      (∃ t, step (idleWith [.host (.write 0x000 4 0x10#32)]) = .next t ∧ t.status.busy = true) ∧
      ∀ rest, (idleWith [.host (.write 0x000 4 0x10#32)]).agenda ≠ .reset :: rest := ⟨rfl, ⟨_, rfl, by decide⟩, fun _ => nofun⟩

/-- A PMUL in progress, with work and a dropped write to come. -/
theorem witness_EveryAcceptedCommandCompletes :
    (busyWith 0x12#32 [.work, .host (.write 0x108 4 9#32)]).status.busy = true ∧
      Event.reset ∉ (busyWith 0x12#32 [.work, .host (.write 0x108 4 9#32)]).agenda := by decide

theorem witness_StepRunsTheDecodedCommand :
    (busyWith 0x12#32 [.complete]).status.busy = true ∧ decode (busyWith 0x12#32 [.complete]).op = .ok .pmul ∧
      (busyWith 0x12#32 [.complete]).agenda = .complete :: [] ∧ (busyWith 0x12#32 []).agenda = [] := by decide

theorem witness_RunFromCommandWriteToCompletion :
    (idleWith [.host (.write 0x000 4 (encode .pmul)), .complete]).status.busy = false ∧
      (idleWith [.host (.write 0x000 4 (encode .pmul)), .complete]).agenda =
        .host (.write 0x000 4 (encode .pmul)) :: .complete :: [] := by decide

theorem witness_ScheduleIsUnobservable :
    (busyWith 0x12#32 []).status.busy = true ∧ ∀ e ∈ [Event.work, .host (.read 0x004 4), .work], e.isPassive = true := by
  decide

theorem witness_AddPointCases :
    (2 : Int) ≤ 2 ∧ ((⟨5, 1⟩ : Point) ≠ ⟨0, 0⟩ ∧ (⟨5, 16⟩ : Point) ≠ ⟨0, 0⟩ ∧ (17 : Int) ∣ 5 - 5) ∧
      (¬(15 : Int) ∣ 4 - 1 ∧ Int.gcd (4 - 1) 15 ≠ 1) ∧ Int.gcd (6 - 5) 17 = 1 ∧ Int.gcd (2 * 1) 17 = 1 := by decide

theorem witness_AddPointOfInversePairsIsIdentity :
    (2 : Int) ≤ 17 ∧ (⟨5, 16⟩ : Point).Canonical 17 ∧ (⟨5, 16⟩ : Point).y ≠ 0 := by decide

/-- V-A12 and V-D1: `(22, 18)` and `(5, 1)` have the same residues. -/
theorem witness_ResultsDependOnResidues :
    (2 : Int) ≤ 17 ∧ (22 : Int) ≡ 5 [ZMOD 17] ∧ (18 : Int) ≡ 1 [ZMOD 17] ∧ (-15 : Int) ≡ 2 [ZMOD 17] ∧
      (⟨22, 18⟩ : Point) ≠ ⟨0, 0⟩ ∧ (⟨5, 1⟩ : Point) ≠ ⟨0, 0⟩ := by decide

/-- V-A10, V-A18, V-A3, and the host's `-S` against its canonical form. -/
theorem witness_StructuralComparisonLimits :
    ((5 : Int) ≡ 22 [ZMOD 17] ∧ (⟨5, 1⟩ : Point) ≠ ⟨22, 1⟩) ∧
      ((17 : Int) ≡ 0 [ZMOD 17] ∧ (⟨17, 0⟩ : Point) ≠ ⟨0, 0⟩ ∧ (17 : Int) ∣ 0 - 17 ∧ Int.gcd (5 - 17) 17 = 1) ∧
      addPoint ⟨0, 0⟩ ⟨0, 0⟩ 2 17 = .ok ⟨0, 0⟩ ∧
      ((⟨6, 3⟩ : Point).Canonical 17 ∧ (⟨6, 14⟩ : Point).Canonical 17 ∧ (14 : Int) ≡ -3 [ZMOD 17]) := by decide

/-! #### The toy curve of 95_test_vectors.md: `y² = x³ + 2x + 2` modulo 17, with `G = (5, 1)` -/

theorem prime17 : Fact (Nat.Prime 17) := ⟨by norm_num⟩

theorem toy_nonsingular : (shortCurve 17 2 2).Nonsingular 5 1 := by
  rw [WeierstrassCurve.Affine.nonsingular_iff, WeierstrassCurve.Affine.equation_iff]
  decide

/-- The point `G = (5, 1)`. -/
def toyG : (shortCurve 17 2 2).Point := .some 5 1 toy_nonsingular

theorem pointOf_toyG : pointOf toyG = ⟨5, 1⟩ := by decide

theorem witness_AddPointIsGroupAddition :
    Nat.Prime 17 ∧ (pointOf toyG = ⟨0, 0⟩ → toyG = 0) ∧
      (pointOf (0 : (shortCurve 17 2 2).Point) = ⟨0, 0⟩ → (0 : (shortCurve 17 2 2).Point) = 0) :=
  ⟨prime17.out, fun h => absurd (pointOf_toyG.symm.trans h) (by decide), fun _ => rfl⟩

theorem witness_MultiplyPointIsScalarMultiple : Nat.Prime 17 ∧ ¬((17 : Nat) : Int) ∣ 2 ∧ pointOf toyG = ⟨5, 1⟩ :=
  ⟨prime17.out, by decide, pointOf_toyG⟩

theorem witness_ScalarMultiplicationLaws : Nat.Prime 17 ∧ ¬((17 : Nat) : Int) ∣ 2 ∧ (2 : Int) ≤ 17 :=
  ⟨prime17.out, by decide, by decide⟩

/-- Step `C1` of program P2. -/
theorem witness_ChordRoundTrip :
    Nat.Prime 17 ∧ (⟨3, 4⟩ : Point).Canonical 17 ∧ (⟨3, 4⟩ : Point) ≠ ⟨0, 0⟩ ∧ ¬(3 : Int) ≡ 6 [ZMOD 17] ∧
      addPoint ⟨3, 4⟩ ⟨6, 3⟩ 2 17 = .ok ⟨10, 4⟩ ∧ (⟨10, 4⟩ : Point) ≠ ⟨0, 0⟩ ∧ ¬(10 : Int) ≡ 6 [ZMOD 17] :=
  ⟨prime17.out, by decide⟩

/-- Program P2: `n = 7`, `k = 3`, three message points. -/
theorem witness_SessionRoundTrip :
    Nat.Prime 17 ∧ ¬((17 : Nat) : Int) ∣ 2 ∧ sessionPublic 2 17 (pointOf toyG) 7 = .ok ⟨0, 6⟩ ∧
      multiplyPoint ⟨0, 6⟩ 3 2 17 = .ok ⟨6, 3⟩ ∧
      sessionEncrypt 2 17 (pointOf toyG) ⟨0, 6⟩ 3 [⟨3, 4⟩, ⟨12, 9⟩, ⟨1, 0⟩] =
        .ok (⟨10, 6⟩, [⟨10, 4⟩, ⟨0, 3⟩, ⟨9, 2⟩]) ∧
      (∀ m ∈ [(⟨3, 4⟩ : Point), ⟨12, 9⟩, ⟨1, 0⟩], m.Canonical 17 ∧ m ≠ ⟨0, 0⟩ ∧ ¬m.x ≡ 6 [ZMOD 17]) ∧
      ∀ c ∈ [(⟨10, 4⟩ : Point), ⟨0, 3⟩, ⟨9, 2⟩], c ≠ ⟨0, 0⟩ ∧ ¬c.x ≡ 6 [ZMOD 17] := by
  rw [pointOf_toyG]
  exact ⟨prime17.out, by decide⟩

theorem witness_PointCodecRoundTrip : [1, 2, 3, 4].length % 2 = 0 ∧ ([] : List Nat).length % 2 = 0 := by decide

theorem witness_DigitCodecRoundTrip :
    1 ≤ 2 ∧ ∀ c ∈ chunksOf 2 3 [104#8, 0#8, 108#8], ∀ b, c.head? = some b → b ≠ 0#8 := by simp [chunksOf]

/-- `S = (6, 3)` and `O`; ciphertext points equal to neither form, and the canonical `(6, 14) ≡ -S`. -/
theorem witness_NegationFormsOfDecrypt :
    (2 : Int) ≤ 17 ∧ (⟨6, 3⟩ : Point).Canonical 17 ∧ (⟨0, 0⟩ : Point).Canonical 17 ∧
      ((⟨10, 4⟩ : Point) ≠ ⟨0, 0⟩ ∧ (⟨10, 4⟩ : Point) ≠ negateAs .raw 17 ⟨6, 3⟩ ∧
        (⟨10, 4⟩ : Point) ≠ negateAs .canonical 17 ⟨6, 3⟩) ∧
      (0 < (3 : Int) ∧ (⟨6, 14⟩ : Point).Canonical 17 ∧ (14 : Int) ≡ -3 [ZMOD 17] ∧ Int.gcd (2 * 14) 17 = 1) := by decide

/-- Program P2 as a buffer: six bytes, one per value, with `n = 65538`, which is 7 modulo the order 19 of `G` and gives group
size 1. -/
theorem witness_BufferRoundTrip :
    Nat.Prime 17 ∧ ¬((17 : Nat) : Int) ∣ 2 ∧
      constructSession false 2 2 17 65538 (pointOf toyG) = .ok ⟨2, 2, 17, 65538, ⟨5, 1⟩, ⟨0, 6⟩, 1⟩ ∧
      multiplyPoint ⟨0, 6⟩ 3 2 17 = .ok ⟨6, 3⟩ ∧
      Session.encryptBuffer ⟨2, 2, 17, 65538, ⟨5, 1⟩, ⟨0, 6⟩, 1⟩ 3 [3#8, 4#8, 12#8, 9#8, 1#8, 0#8] =
        .ok (⟨10, 6⟩, [⟨10, 4⟩, ⟨0, 3⟩, ⟨9, 2⟩]) ∧
      (∀ m ∈ generatePoints (fromDigits [3#8, 4#8, 12#8, 9#8, 1#8, 0#8] 1),
        m.Canonical 17 ∧ m ≠ ⟨0, 0⟩ ∧ ¬m.x ≡ 6 [ZMOD 17]) ∧
      ∀ c ∈ [(⟨10, 4⟩ : Point), ⟨0, 3⟩, ⟨9, 2⟩], c ≠ ⟨0, 0⟩ ∧ ¬c.x ≡ 6 [ZMOD 17] := by
  rw [pointOf_toyG]
  exact ⟨prime17.out, by decide, by decide, by decide, by decide, by decide, by decide⟩

end Sys2Proof.Tests
end

section
/-! PROOFS. The statements of 10_state.md: what the registers hold and what a write stores (R11), which steps change an
operand (R12), how a write of `CMD` is taken (R17), and what reset leaves (R23). -/

namespace Sys2Proof.Machine

/-! ### The width and the operand registers under every operation -/

/-- Column "Host access" of 10_state.md R10: the result registers are the ones the host cannot write. -/
theorem RegName.not_mem_results {r : RegName} (h : r.hostWritable = true) : r ∉ [RegName.xr, RegName.yr] := by
  cases r <;> simp_all [RegName.hostWritable]

theorem RegName.isSigned_of_ne_k {r : RegName} (h : r ≠ .k) : r.isSigned = true := by
  cases r <;> simp_all [RegName.isSigned]

/-- A frame for fewer written registers is one for more. -/
theorem Frame.mono {written written' : List RegName} {s t : State} (hsub : written ⊆ written')
    (h : Frame written s t) : Frame written' s t :=
  .of_regs h.nw h.op h.reply h.agenda fun r hr => h.regs r fun hm => hr (hsub hm)

/-- A command writes `XR` and `YR` at most (10_state.md R12, R18). -/
theorem exec_frame {i : Instr} {s t : State} (h : exec i s = .next t) : Frame [.xr, .yr] s t := by
  obtain ⟨t', ht, hc⟩ := exec_cases i s
  obtain rfl : t' = t := Host.Outcome.next.inj (ht.symm.trans h)
  rcases hc with ⟨e, _, rfl⟩ | ⟨_, v, _, _, rfl⟩ | ⟨_, q, _, rfl⟩
  · exact (s.raise_frame e).mono (List.nil_subset _)
  · exact (s.commitX_frame v).mono (by simp)
  · exact s.commitPoint_frame q

/-- The engine's completion writes `XR` and `YR` at most, with or without a command in progress. -/
theorem State.completeStep_frame {s t : State} (h : s.completeStep = .next t) : Frame [.xr, .yr] s t := by
  obtain ⟨t', ht, hc⟩ := s.completeStep_cases
  obtain rfl : t' = t := Host.Outcome.next.inj (ht.symm.trans h)
  rcases hc with ⟨_, rfl⟩ | ⟨_, ⟨e, rfl⟩ | ⟨_, v, _, rfl⟩ | ⟨_, q, rfl⟩⟩
  · exact .of_regs rfl rfl rfl rfl fun _ _ => rfl
  · exact (s.raise_frame e).mono (List.nil_subset _)
  · exact (s.commitX_frame v).mono (by simp)
  · exact s.commitPoint_frame q

/-- Work inside a command changes no data register and keeps the width (70_reset_and_hazards.md R140). -/
theorem State.workStep_regs_nw (s : State) : s.workStep.regs = s.regs ∧ s.workStep.nw = s.nw := by
  rcases s.workStep_cases with h | ⟨_, _, h⟩
  · rw [h]; exact ⟨rfl, rfl⟩
  · rcases s.pmulWork_cases with ⟨e, h'⟩ | ⟨_, l, h', _⟩ <;> rw [h, h'] <;> exact ⟨rfl, rfl⟩

/-- Serving a transfer keeps the width, and the registers as well unless an idle engine takes a word of one of them
(20_memory.md R34). -/
theorem State.serve_regs_nw (s : State) (tr : Transfer) :
    (s.serve tr).nw = s.nw ∧
      ((s.serve tr).regs = s.regs ∨
        s.status.busy = false ∧ ∃ off v r j, tr = .write off 4 v ∧ locate s.nw off = .data r j ∧
          (s.serve tr).regs = s.regs.set r ((s.regs.get r).set j v)) := by
  obtain ⟨s', ρ, hs, hc⟩ := s.serve_cases tr
  rw [hs]
  rcases hc with rfl | ⟨_, rfl⟩ | ⟨hb, off, v, htr, _, ⟨_, rfl⟩ | ⟨r, j, hl, _, rfl⟩⟩
  · exact ⟨rfl, .inl rfl⟩
  · exact ⟨rfl, .inl rfl⟩
  · exact ⟨rfl, .inl rfl⟩
  · exact ⟨rfl, .inr ⟨hb, off, v, r, j, htr, hl, rfl⟩⟩

/-! ### What a step does to the width and the operand registers -/

/-- A step is one of the four things that the next event says; with no event to come it is a completion. -/
theorem step_cases {s t : State} (h : step s = .next t) :
    (∃ rest, s.agenda = .reset :: rest ∧ t = State.applyReset { s with agenda := rest }) ∨
    (∃ tr rest, s.agenda = .host tr :: rest ∧ t = State.serve tr { s with agenda := rest }) ∨
    (∃ rest, s.agenda = .work :: rest ∧ t = State.workStep { s with agenda := rest }) ∨
    ((s.agenda = [] ∨ ∃ rest, s.agenda = .complete :: rest) ∧
      State.completeStep { s with agenda := s.agenda.tail } = .next t) := by
  cases ha : s.agenda with
  | nil =>
    have hs : ({ s with agenda := [] } : State) = s := by rw [← ha]
    exact .inr (.inr (.inr ⟨.inl rfl, by rw [List.tail_nil, hs, ← step_nil ha, h]⟩))
  | cons e rest =>
    cases e with
    | reset => exact .inl ⟨rest, rfl, Host.Outcome.next.inj (h.symm.trans (step_reset ha))⟩
    | host tr => exact .inr (.inl ⟨tr, rest, rfl, Host.Outcome.next.inj (h.symm.trans (step_host ha))⟩)
    | work => exact .inr (.inr (.inl ⟨rest, rfl, Host.Outcome.next.inj (h.symm.trans (step_work ha))⟩))
    | complete => exact .inr (.inr (.inr ⟨.inr ⟨rest, rfl⟩, (step_complete ha).symm.trans h⟩))

/-- No step changes an instance's width. -/
theorem step_nw {s t : State} (h : step s = .next t) : t.nw = s.nw := by
  rcases step_cases h with ⟨_, _, rfl⟩ | ⟨tr, _, _, rfl⟩ | ⟨_, _, rfl⟩ | ⟨_, hc⟩
  · rfl
  · exact (State.serve_regs_nw _ tr).1
  · exact (State.workStep_regs_nw _).2
  · exact (State.completeStep_frame hc).nw

/-- An operand register changes by reset, or in one word by the host's write of that word to an idle engine
(10_state.md R12). -/
theorem step_operand_changed {s t : State} {r : RegName} (h : step s = .next t) (hw : r.hostWritable = true)
    (hne : t.regs.get r ≠ s.regs.get r) :
    (∃ rest, s.agenda = .reset :: rest ∧ t = State.applyReset { s with agenda := rest }) ∨
    (s.status.busy = false ∧ ∃ off v rest j, s.agenda = .host (.write off 4 v) :: rest ∧
      locate s.nw off = .data r j ∧ t.regs.get r = (s.regs.get r).set j v) := by
  rcases step_cases h with hr | ⟨tr, rest, ha, rfl⟩ | ⟨rest, _, rfl⟩ | ⟨_, hc⟩
  · exact .inl hr
  · obtain ⟨_, hs | ⟨hb, off, v, r', j, rfl, hl, hs⟩⟩ := State.serve_regs_nw { s with agenda := rest } tr
    · exact absurd (congrArg (Regs.get · r) hs) hne
    · obtain rfl : r = r' := by
        by_contra hrr
        exact hne (by rw [hs, Regs.get_set_ne _ _ _ _ hrr])
      exact .inr ⟨hb, off, v, rest, j, ha, hl, by rw [hs, Regs.get_set_self]⟩
  · exact absurd (congrArg (Regs.get · r) (State.workStep_regs_nw _).1) hne
  · exact absurd ((State.completeStep_frame hc).regs r (RegName.not_mem_results hw)) hne

/-- Settles O37: a command's frame leaves the operands out, and a step that changes one is a reset or the host's write. -/
theorem operandsChangeOnlyByIdleHostWrites : Obligations.OperandsChangeOnlyByIdleHostWrites := by
  refine ⟨fun i s t r h hw => (exec_frame h).regs r (RegName.not_mem_results hw), fun s t r h hw hne => ?_⟩
  rcases step_operand_changed h hw hne with ⟨rest, ha, _⟩ | hhost
  · exact .inl ⟨rest, ha⟩
  · exact .inr hhost

/-! ### The values of registers -/

theorem State.Inv.value_k_range {s : State} (hI : s.Inv) : 0 ≤ s.value .k ∧ s.value .k < 2 ^ Config.width s.nw := by
  have h := patternNat_lt (s.regs.get .k)
  rw [hI.regs] at h
  rw [State.value_k]
  exact ⟨Int.natCast_nonneg _, by exact_mod_cast h⟩

/-- `K` holds the value written, whether read as a register or as a pattern (10_state.md R11). -/
theorem State.value_writeValue_k (s : State) (v : Int) :
    (s.writeValue .k v).value .k = patternNat (tcPattern s.nw v) := rfl

/-- Settles O5: `sext_W` of the bits has the signed range, and `tc_W` stores what reads back. -/
theorem registerValuesAndWrites : Obligations.RegisterValuesAndWrites := by
  intro s hI
  refine ⟨fun r hr => ?_, ⟨rfl, hI.value_k_range⟩, fun r v hr h1 h2 => ?_, fun v h0 h1 => ?_,
    fun r r' v hne => s.writeValue_get_ne v r r' hne⟩
  · have hsg := RegName.isSigned_of_ne_k hr
    exact ⟨State.value_signed hsg, hI.value_range hsg⟩
  · refine ⟨State.value_writeValue (RegName.isSigned_of_ne_k hr) hI.width h1 h2, ?_⟩
    rw [State.writeValue_get_self]
    exact patternNat_tcPattern s.nw v
  · have hk := patternNat_tcPattern_of_lt h0 h1
    exact ⟨(s.value_writeValue_k v).trans hk, by rw [State.writeValue_get_self]; exact hk⟩

/-! ### Reset -/

theorem patternNat_replicate_zero (n : Nat) : patternNat (List.replicate n 0#32) = 0 := by
  induction n with
  | zero => rfl
  | succ n ih => rw [List.replicate_succ, patternNat_cons, ih]; rfl

theorem signedValue_of_patternNat_zero {nw : Nat} {p : Pattern} (h : patternNat p = 0) : signedValue nw p = 0 := by
  simp [signedValue, sext, h]

/-- A register of zero words reads as 0, signed or unsigned. -/
theorem State.value_of_regs_zero {s : State} {nw : Nat} (h : s.regs = Regs.zero nw) (r : RegName) : s.value r = 0 := by
  have hz : patternNat (s.regs.get r) = 0 := by rw [h, Regs.get_zero, patternNat_replicate_zero]
  unfold State.value
  split
  · exact signedValue_of_patternNat_zero hz
  · rw [hz]; rfl

/-- The state of R23, whatever the width, the port's answer and the events to come. -/
theorem State.allZero_of_reset {s : State} {nw : Nat} (hr : s.regs = Regs.zero nw) (hst : s.status = Status.zero)
    (hop : s.op = 0#32) (hl : s.loop = PmulLoop.idle) : s.AllZero := by
  refine ⟨State.value_of_regs_zero hr, fun r w hw => ?_, by rw [hst]; decide, hop, hl⟩
  rw [hr, Regs.get_zero] at hw
  exact List.eq_of_mem_replicate hw

theorem State.value_applyReset (s : State) (r : RegName) : s.applyReset.value r = 0 :=
  State.value_of_regs_zero s.applyReset_regs r

theorem exec_of_small_modulus {s : State} (i : Instr) (h : s.value .rp < 2) :
    exec i s = .next (s.raise .invalidModulus) := by
  cases i <;> exact congrArg Host.Outcome.next (State.withModulus_small h)

/-- Every command tests the modulus first (60_exceptions.md R113). -/
theorem trapsWith_invalidModulus {s : State} (i : Instr) (h : s.value .rp < 2) : TrapsWith i s .invalidModulus :=
  ⟨_, exec_of_small_modulus i h, s.raise_completedErr _, rfl, s.raise_frame _⟩

/-- A modulus below 2 becomes a legal one by the host's write of a word of `RP` to an idle engine only
(10_state.md R23). -/
theorem step_modulus_becomes_legal {s t : State} (h : step s = .next t) (hs : s.value .rp < 2) (ht : 2 ≤ t.value .rp) :
    s.status.busy = false ∧
      ∃ off v rest j, s.agenda = .host (.write off 4 v) :: rest ∧ locate s.nw off = .data .rp j := by
  have hne : t.regs.get .rp ≠ s.regs.get .rp := fun he => by
    rw [State.value_congr (step_nw h) he] at ht
    omega
  rcases step_operand_changed h rfl hne with ⟨_, _, rfl⟩ | ⟨hb, off, v, rest, j, ha, hl, _⟩
  · rw [State.value_applyReset] at ht
    omega
  · exact ⟨hb, off, v, rest, j, ha, hl⟩

/-- Settles O32: all is 0 after reset, so the modulus is below 2, which only the host's write to `RP` ends. -/
theorem resetZeroesTheEngine : Obligations.ResetZeroesTheEngine := by
  refine ⟨State.allZero_of_reset rfl rfl rfl rfl, fun s rest ha => ?_, fun _ i => trapsWith_invalidModulus i,
    fun _ _ => step_modulus_becomes_legal⟩
  have hv := State.value_applyReset { s with agenda := rest }
  refine ⟨_, step_reset ha, State.allZero_of_reset rfl rfl rfl rfl, ?_, ?_, ?_, fun i => ?_⟩
  · simp only [State.point1, hv]
  · simp only [State.point2, hv]
  · simp only [State.result, hv]
  · exact trapsWith_invalidModulus i (by rw [hv]; decide)

/-! ### A write and a read of `CMD` -/

theorem State.writeCmd_of_idle {s : State} (c : Word) (hb : s.status.busy = false) : s.writeCmd c = s.accept c := by
  simp [State.writeCmd, hb]

theorem State.writeCmd_of_busy {s : State} (c : Word) (hb : s.status.busy = true) : s.writeCmd c = s.dropWrite := by
  simp [State.writeCmd, hb]

theorem step_readCmd {s : State} {rest : List Event} (h : s.agenda = .host (.read cmdOffset 4) :: rest) :
    step s = .next { s with agenda := rest, reply := .read 0#32 false } := by
  rw [step_host h]
  simp only [State.serve, admitted_cmd, if_true, State.readWord, locate_cmd]

/-- Settles O15: by the step that serves a transfer at `CMD`; an idle engine's hidden loop is already dead, so acceptance
leaves it as it is. -/
theorem commandWriteAcceptedIffIdle : Obligations.CommandWriteAcceptedIffIdle := by
  refine fun s c rest hI => ⟨fun hw => ⟨fun hb => ?_, fun hb => ?_⟩, step_readCmd⟩
  · rw [step_writeCmd hw, State.writeCmd_of_idle (s := { s with agenda := rest }) c hb]
    simp only [State.accept, Status.accepted, hI.loop_idle hb]
  · rw [step_writeCmd hw, State.writeCmd_of_busy (s := { s with agenda := rest }) c hb]
    rfl

end Sys2Proof.Machine
end

section
/-! PROOFS. The statements of 20_memory.md: which transfers the port refuses (R35) and what an admitted write does (R34). -/

namespace Sys2Proof.Machine

/-! ### Serving a transfer the port refuses, and a write it admits -/

theorem admitted_eq_false_iff {nw off size : Nat} :
    admitted nw off size = false ↔ size ≠ 4 ∨ off % 4 ≠ 0 ∨ windowSize nw ≤ off := by
  rw [← Bool.not_eq_true, admitted_iff]
  omega

theorem State.serve_read_refused {s : State} {off size : Nat} (h : admitted s.nw off size = false) :
    s.serve (.read off size) = { s with reply := .read 0#32 true } := by
  simp [State.serve, h]

theorem State.serve_write_refused {s : State} {off size : Nat} (v : Word) (h : admitted s.nw off size = false) :
    s.serve (.write off size v) = { s with reply := .write true } := by
  simp [State.serve, h]

theorem State.serve_write_admitted {s : State} {off size : Nat} (v : Word) (h : admitted s.nw off size = true) :
    s.serve (.write off size v) = { s.writeWord off v with reply := .write false } := by
  simp [State.serve, h]

theorem step_write_admitted {s : State} {off size : Nat} {v : Word} {rest : List Event}
    (ha : s.agenda = .host (.write off size v) :: rest) (h : admitted s.nw off size = true) :
    step s = .next { State.writeWord off v { s with agenda := rest } with reply := .write false } := by
  rw [step_host ha, State.serve_write_admitted (s := { s with agenda := rest }) v h]

/-- Settles O14: such a transfer is not admitted, and serving it sets the port's answer only. -/
theorem refusedTransferChangesNothing : Obligations.RefusedTransferChangesNothing := by
  intro s off size v rest h
  have hna := admitted_eq_false_iff.mpr h
  refine ⟨fun ha => ?_, fun ha => ?_⟩
  · rw [step_host ha, State.serve_read_refused (s := { s with agenda := rest }) hna]
  · rw [step_host ha, State.serve_write_refused (s := { s with agenda := rest }) v hna]

/-! ### The address map by ranges of offsets (20_memory.md R31, R33) -/

theorem locate_eq_cmd {nw off : Nat} (h : locate nw off = .cmd) : off = cmdOffset := by
  by_contra h0
  unfold locate at h
  rw [if_neg h0] at h
  split at h
  · cases h
  · split at h
    · split at h <;> cases h
    · cases h

/-- An offset between the first and the last byte of the data registers is a word of the register it falls in. -/
theorem locate_of_dataRange {nw off : Nat} (h1 : 0x100 ≤ off) (h2 : off < dataEnd nw) :
    ∃ r : RegName, r.index = (off - 0x100) / regBytes nw ∧
      locate nw off = .data r ((off - 0x100) % regBytes nw / 4) := by
  have hi : (off - 0x100) / regBytes nw < 9 :=
    Nat.div_lt_of_lt_mul (by unfold dataEnd at h2; rw [Nat.mul_comm]; omega)
  obtain ⟨r, hr⟩ := RegName.ofIndex_isSome hi
  refine ⟨r, RegName.index_of_ofIndex hr, ?_⟩
  unfold locate cmdOffset statusOffset
  rw [if_neg (by omega), if_neg (by omega), if_pos ⟨h1, h2⟩, hr]

/-- The registers that the host may write are the first seven (10_state.md R10). -/
theorem RegName.hostWritable_iff_index_lt (r : RegName) : r.hostWritable = true ↔ r.index < 7 := by
  cases r <;> decide

/-- The first seven registers' words are words of writable registers. -/
theorem locate_of_operandRange {nw off : Nat} (h1 : 0x100 ≤ off) (h2 : off < 0x100 + 7 * regBytes nw) :
    ∃ r : RegName, r.hostWritable = true ∧ r.index = (off - 0x100) / regBytes nw ∧
      locate nw off = .data r ((off - 0x100) % regBytes nw / 4) := by
  obtain ⟨r, hidx, hl⟩ := locate_of_dataRange (nw := nw) h1 (by unfold dataEnd; omega)
  refine ⟨r, r.hostWritable_iff_index_lt.mpr ?_, hidx, hl⟩
  rw [hidx]
  exact Nat.div_lt_of_lt_mul (by rw [Nat.mul_comm]; omega)

/-- A word of a writable register stands among the first seven registers. -/
theorem operandRange_of_locate {nw off j : Nat} {r : RegName} (h4 : off % 4 = 0) (hl : locate nw off = .data r j)
    (hw : r.hostWritable = true) : 0x100 ≤ off ∧ off < 0x100 + 7 * regBytes nw := by
  obtain ⟨rfl, hj⟩ := locate_data hl h4
  have hr : (r.index + 1) * regBytes nw ≤ 7 * regBytes nw :=
    Nat.mul_le_mul_right _ (r.hostWritable_iff_index_lt.mp hw)
  rw [Nat.succ_mul] at hr
  unfold wordOffset
  unfold regBytes at hr ⊢
  omega

/-! ### What an admitted write does, by the place it writes (20_memory.md R34) -/

theorem State.writeWord_cmd {s : State} {off : Nat} (v : Word) (h : off = cmdOffset) :
    s.writeWord off v = s.writeCmd v := by
  simp only [h, State.writeWord, locate_cmd]

theorem State.writeWord_data {s : State} {off j : Nat} {r : RegName} (v : Word) (hl : locate s.nw off = .data r j) :
    s.writeWord off v = s.writeReg r j v := by
  simp only [State.writeWord, hl]

theorem State.writeReg_of_busy {s : State} {r : RegName} (j : Nat) (v : Word) (hw : r.hostWritable = true)
    (hb : s.status.busy = true) : s.writeReg r j v = s.dropWrite := by
  simp [State.writeReg, hw, hb]

theorem State.writeReg_of_idle {s : State} {r : RegName} (j : Nat) (v : Word) (hw : r.hostWritable = true)
    (hb : s.status.busy = false) :
    s.writeReg r j v = { s with regs := s.regs.set r ((s.regs.get r).set j v) } := by
  simp [State.writeReg, hw, hb]

theorem State.writeReg_of_not_hostWritable (s : State) {r : RegName} (j : Nat) (v : Word)
    (hw : r.hostWritable = false) : s.writeReg r j v = s := by
  simp [State.writeReg, hw]

/-- A busy engine drops a write to the registers `RP` to `K`. -/
theorem State.writeWord_operand_of_busy {s : State} {off : Nat} (v : Word) (h1 : 0x100 ≤ off)
    (h2 : off < 0x100 + 7 * regBytes s.nw) (hb : s.status.busy = true) : s.writeWord off v = s.dropWrite := by
  obtain ⟨r, hw, -, hl⟩ := locate_of_operandRange h1 h2
  rw [State.writeWord_data v hl, State.writeReg_of_busy _ v hw hb]

/-- An idle engine takes a write to the registers `RP` to `K` into one word of the register at that offset. -/
theorem State.writeWord_operand_of_idle {s : State} {off : Nat} (v : Word) (h1 : 0x100 ≤ off)
    (h2 : off < 0x100 + 7 * regBytes s.nw) (hb : s.status.busy = false) :
    ∃ r : RegName, r.index = (off - 0x100) / regBytes s.nw ∧ s.writeWord off v =
      { s with regs := s.regs.set r ((s.regs.get r).set ((off - 0x100) % regBytes s.nw / 4) v) } := by
  obtain ⟨r, hw, hidx, hl⟩ := locate_of_operandRange h1 h2
  exact ⟨r, hidx, by rw [State.writeWord_data v hl, State.writeReg_of_idle _ v hw hb]⟩

/-- A write to neither `CMD` nor the registers `RP` to `K` is ignored. -/
theorem State.writeWord_elsewhere {s : State} {off : Nat} (v : Word) (h4 : off % 4 = 0) (hc : off ≠ cmdOffset)
    (hout : off < 0x100 ∨ 0x100 + 7 * regBytes s.nw ≤ off) : s.writeWord off v = s := by
  cases hl : locate s.nw off with
  | cmd => exact absurd (locate_eq_cmd hl) hc
  | status => simp only [State.writeWord, hl]
  | reserved => simp only [State.writeWord, hl]
  | data r j =>
    rw [State.writeWord_data v hl]
    cases hw : r.hostWritable with
    | false => exact s.writeReg_of_not_hostWritable j v hw
    | true =>
      obtain ⟨h1, h2⟩ := operandRange_of_locate h4 hl hw
      omega

/-- Replacing one word of a pattern leaves the other words as they were. -/
theorem getD_set_word {p : Pattern} {i : Nat} (v : Word) (hi : i < p.length) (j : Nat) :
    (p.set i v).getD j 0#32 = if j = i then v else p.getD j 0#32 := by
  by_cases hj : j = i
  · subst hj
    simp [hi]
  · simp [hj, List.getElem?_set_ne (Ne.symm hj)]

/-- Settles O11: the offset's place in the address map selects what the write does; an idle engine's hidden loop is dead
already, so acceptance leaves it as it is. -/
theorem busWriteUpdatesTheWindow : Obligations.BusWriteUpdatesTheWindow := by
  intro s off v rest hI ha h4 hwin
  refine ⟨_, step_write_admitted ha (admitted_iff.mpr ⟨rfl, h4, hwin⟩), fun hc hb => ?_, fun hc hb => ?_,
    fun h1 h2 hb => ?_, fun h1 h2 hb => ?_, fun hc hout => ?_⟩
  · rw [State.writeWord_cmd v hc, State.writeCmd_of_idle (s := { s with agenda := rest }) v hb]
    simp only [State.accept, Status.accepted, hI.loop_idle hb]
  · rw [State.writeWord_cmd v hc, State.writeCmd_of_busy (s := { s with agenda := rest }) v hb]
    rfl
  · rw [State.writeWord_operand_of_busy (s := { s with agenda := rest }) v h1 h2 hb]
    rfl
  · obtain ⟨r, hidx, hs⟩ := State.writeWord_operand_of_idle (s := { s with agenda := rest }) v h1 h2 hb
    have hj : (off - 0x100) % regBytes s.nw / 4 < (s.regs.get r).length := by
      rw [hI.regs]
      exact Nat.div_lt_of_lt_mul (Nat.mod_lt _ (Nat.mul_pos (by decide) hI.width))
    rw [hs]
    refine ⟨r, hidx, rfl, fun r' hr' => Regs.get_set_ne _ _ _ _ hr', ?_, fun j _ => ?_⟩
    · rw [Regs.get_set_self, List.length_set, hI.regs]
    · rw [Regs.get_set_self]
      exact getD_set_word v hj j
  · rw [State.writeWord_elsewhere (s := { s with agenda := rest }) v h4 hc hout]

end Sys2Proof.Machine
end

section
/-! PROOFS. The statements of 30_encoding.md: a word that is no command is accepted and completes with IllegalCommand
(R53). -/

namespace Sys2Proof

/-! ### The words that do not decode -/

theorem decode_of_nonzeroField {w : Word} (h : w.extractLsb' 8 24 ≠ 0#24) : decode w = .error .zeroFieldNotZero := by
  have hf : commandFormatOk w = false := beq_false_of_ne h
  simp only [decode, hf, Bool.false_eq_true, if_false]

theorem decodeOpcode_of_unassigned {op : BitVec 8} (h : op.toNat ∉ [0x01, 0x02, 0x10, 0x11, 0x12]) :
    decodeOpcode op = .error .unassignedOpcode := by
  simp only [List.mem_cons, List.not_mem_nil, or_false, not_or] at h
  obtain ⟨hfred, hfinv, hpadd, hpdbl, hpmul⟩ := h
  unfold decodeOpcode
  rw [if_neg fun he => hfred (congrArg BitVec.toNat he), if_neg fun he => hfinv (congrArg BitVec.toNat he),
    if_neg fun he => hpadd (congrArg BitVec.toNat he), if_neg fun he => hpdbl (congrArg BitVec.toNat he),
    if_neg fun he => hpmul (congrArg BitVec.toNat he)]

/-- The two ways of being illegal (30_encoding.md R53). -/
theorem decode_illegal {w : Word}
    (h : w.extractLsb' 8 24 ≠ 0#24 ∨ (w.extractLsb' 0 8).toNat ∉ [0x01, 0x02, 0x10, 0x11, 0x12]) :
    ∃ e, decode w = .error e := by
  by_cases hz : w.extractLsb' 8 24 = 0#24
  · have hf : commandFormatOk w = true := beq_iff_eq.mpr hz
    have hop : decodeOpcode (opcodeField w) = .error .unassignedOpcode :=
      decodeOpcode_of_unassigned (h.resolve_left (not_not_intro hz))
    exact ⟨.unassignedOpcode, by rw [decode, if_pos hf, hop]⟩
  · exact ⟨.zeroFieldNotZero, decode_of_nonzeroField hz⟩

end Sys2Proof

namespace Sys2Proof.Machine

/-! ### The acceptance and the completion of such a word -/

/-- An idle engine latches any word the host writes to `CMD` (10_state.md R17). -/
theorem step_writeCmd_of_idle {s : State} {c : Word} {rest : List Event} (hb : s.status.busy = false)
    (ha : s.agenda = .host (.write cmdOffset 4 c) :: rest) :
    step s = .next { State.accept c { s with agenda := rest } with reply := .write false } := by
  rw [step_writeCmd ha, State.writeCmd_of_idle (s := { s with agenda := rest }) c hb]

theorem State.completeStep_of_illegal {s : State} {e : DecodeError} (hb : s.status.busy = true)
    (hd : decode s.op = .error e) : s.completeStep = .next (s.raise .illegalCommand) := by
  simp [State.completeStep, hb, hd, State.completeIllegal]

theorem step_complete_of_illegal {s : State} {e : DecodeError} {rest : List Event} (hb : s.status.busy = true)
    (hd : decode s.op = .error e) (ha : s.agenda = .complete :: rest) :
    step s = .next (State.raise .illegalCommand { s with agenda := rest }) := by
  rw [step_complete ha, State.completeStep_of_illegal (s := { s with agenda := rest }) hb hd]

/-- Settles O4: acceptance latches any word, and the completion of one that does not decode raises before any look at the
registers. -/
theorem illegalWordCompletesWithIllegalCommand : Obligations.IllegalWordCompletesWithIllegalCommand := by
  intro s w rest hb hw ha
  obtain ⟨e, hd⟩ := decode_illegal hw
  exact ⟨⟨e, hd⟩, _, _, step_writeCmd_of_idle hb ha, rfl, rfl, rfl, step_complete_of_illegal rfl hd rfl, rfl, rfl, rfl⟩

end Sys2Proof.Machine
end

section
/-! PROOFS. The statements of 40_field_pipeline.md: the modular inverse (R63) and the two commands of the field layer, FRED
(R65) and FINV (R66). -/

namespace Sys2Proof.Machine

/-! ### The verdict on a value by its greatest common divisor with the modulus (R63) -/

/-- The greatest common divisor with `p` is that of the residue class. -/
theorem gcdOf_red {v p : Int} (hp : 0 < p) : gcdOf (red v p) p = Int.gcd v p := by
  rw [red_eq_emod hp]
  exact Int.gcd_emod v p

/-- A unit is no multiple of the modulus. -/
theorem not_dvd_of_gcd_eq_one {v p : Int} (hp : 2 ≤ p) (hg : Int.gcd v p = 1) : ¬p ∣ v := by
  intro hd
  have h := Int.dvd_coe_gcd hd (dvd_refl p)
  rw [hg] at h
  have := Int.le_of_dvd one_pos h
  omega

theorem inv_eq_undefined_of_dvd {v p : Int} (hp : 0 < p) (hd : p ∣ v) : inv v p = .error .undefinedInverse :=
  inv_eq_undefined ((red_eq_zero_iff hp).mpr hd)

theorem inv_eq_nonInvertible_of_gcd {v p : Int} (hp : 0 < p) (hd : ¬p ∣ v) (hg : Int.gcd v p ≠ 1) :
    inv v p = .error .nonInvertible :=
  inv_eq_nonInvertible (mt (red_eq_zero_iff hp).mp hd) (by rwa [gcdOf_red hp])

/-- A value coprime to the modulus has an inverse. -/
theorem inv_ok_of_gcd {v p : Int} (hp : 2 ≤ p) (hg : Int.gcd v p = 1) : ∃ u, inv v p = .ok u := by
  have hp0 : 0 < p := by omega
  have hne : red v p ≠ 0 := mt (red_eq_zero_iff hp0).mp (not_dvd_of_gcd_eq_one hp hg)
  exact ⟨_, inv_eq_ok hne (by rwa [gcdOf_red hp0])⟩

/-- An inverse of the residue is one of the value. -/
theorem mul_red_modEq_iff {u v p : Int} (hp : 0 < p) : u * red v p ≡ 1 [ZMOD p] ↔ u * v ≡ 1 [ZMOD p] :=
  have hc : u * red v p ≡ u * v [ZMOD p] := (red_modEq hp).mul_left u
  ⟨hc.symm.trans, hc.trans⟩

/-- Settles O20: `inv` answers exactly the canonical inverses of `v`, so two answers agree. -/
theorem inverseIsTheUniqueInverse : Obligations.InverseIsTheUniqueInverse := by
  intro v p hp
  have hp0 : 0 < p := by omega
  refine ⟨inv_eq_undefined, inv_eq_nonInvertible, fun h0 hg => ?_, fun hprime h0 => ?_⟩
  · have hu := inv_eq_ok h0 hg
    obtain ⟨hrange, hmul⟩ := inv_ok_spec hp hu
    refine ⟨_, hu, hrange, (mul_red_modEq_iff hp0).mpr hmul, fun w h1 h2 hw => ?_⟩
    have hw' := (inv_ok_iff hp).mpr ⟨⟨h1, h2⟩, (mul_red_modEq_iff hp0).mp hw⟩
    exact Except.ok.inj (hw'.symm.trans hu)
  · lift p to Nat using hp0.le
    exact gcdOf_eq_one_of_prime hprime h0

/-! ### FRED and FINV by the verdict (R65, R66) -/

theorem exec_fred {s : State} (h : 2 ≤ s.value .rp) :
    exec .fred s = .next (s.commitX (red (s.value .x1) (s.value .rp))) :=
  congrArg Host.Outcome.next (State.withModulus_go h)

theorem exec_finv_of_inv_ok {s : State} {u : Int} (h : 2 ≤ s.value .rp)
    (hu : inv (s.value .x1) (s.value .rp) = .ok u) : exec .finv s = .next (s.commitX u) := by
  simp only [exec, execFinv, State.withModulus_go h, hu]

theorem exec_finv_of_inv_error {s : State} {e : CmdError} (h : 2 ≤ s.value .rp)
    (he : inv (s.value .x1) (s.value .rp) = .error e) : exec .finv s = .next (s.raise e) := by
  simp only [exec, execFinv, State.withModulus_go h, he]

/-- A command that raises leaves all but `STATUS` as it was (10_state.md R19). -/
theorem trapsWith_of_raise {i : Instr} {s : State} {e : CmdError} (h : exec i s = .next (s.raise e)) :
    TrapsWith i s e :=
  ⟨_, h, s.raise_completedErr e, rfl, s.raise_frame e⟩

/-- A command that commits a canonical `v` to `XR` leaves that value there, since the modulus fits its register
(40_field_pipeline.md R60), and all but `XR` and `STATUS` as it was. -/
theorem completesWithX_of_commitX {i : Instr} {s : State} {v : Int} {R : Int → Prop} (hI : s.Inv)
    (h : exec i s = .next (s.commitX v)) (hv : Canonical (s.value .rp) v) (hR : R v) : CompletesWithX i s R := by
  have hx : (s.commitX v).value .xr = v :=
    State.value_commitX hI.width hv.1 hv.2 (hI.value_range (r := .rp) rfl).2
  exact ⟨_, h, by rwa [hx], s.commitX_completedOk v, rfl, s.commitX_frame v⟩

/-- Settles O21: FRED commits the least non-negative residue. -/
theorem fredReducesX1 : Obligations.FredReducesX1 := by
  refine ⟨rfl, fun s hI => ⟨trapsWith_invalidModulus .fred, fun hp => ?_⟩⟩
  have hp0 : 0 < s.value .rp := by omega
  exact completesWithX_of_commitX hI (exec_fred hp) ⟨red_nonneg hp0, red_lt hp0⟩
    ⟨red_nonneg hp0, red_lt hp0, red_modEq hp0⟩

/-- Settles O22: FINV raises or commits what `inv` answers. -/
theorem finvInvertsX1 : Obligations.FinvInvertsX1 := by
  refine ⟨rfl, fun s hI => ⟨trapsWith_invalidModulus .finv, fun hp => ?_⟩⟩
  have hp0 : 0 < s.value .rp := by omega
  refine ⟨fun hd => ?_, fun hd hg => ?_, fun hg => ?_⟩
  · exact trapsWith_of_raise (exec_finv_of_inv_error hp (inv_eq_undefined_of_dvd hp0 hd))
  · exact trapsWith_of_raise (exec_finv_of_inv_error hp (inv_eq_nonInvertible_of_gcd hp0 hd hg))
  · obtain ⟨u, hu⟩ := inv_ok_of_gcd hp hg
    obtain ⟨⟨h1, h2⟩, hmul⟩ := inv_ok_spec hp hu
    exact completesWithX_of_commitX hI (exec_finv_of_inv_ok hp hu) ⟨by omega, h2⟩ ⟨h1, h2, hmul⟩

end Sys2Proof.Machine
end

section
/-! PROOFS. The statements of 41_point_add_double.md: the cases of `addPoint` (R70, R71) and PADD, which commits or raises
what `addPoint` answers (R72). -/

namespace Sys2Proof.Machine

/-! ### `addPoint` by the verdict on the denominator (R71) -/

section
variable {P Q : Point} {a p : Int}

/-- The slope's numerator and denominator are fixed by the case of R71 that holds. -/
theorem slope_eq_of_cases {num den : Int} (hdbl : P = Q → num = 3 * P.x * P.x + a ∧ den = 2 * P.y)
    (hchord : P ≠ Q → num = Q.y - P.y ∧ den = Q.x - P.x) : num = slopeNum P Q a ∧ den = slopeDen P Q := by
  unfold slopeNum slopeDen
  split
  · exact hdbl ‹_›
  · exact hchord ‹_›

theorem addPoint_eq_identity_of_dvd (hp : 0 < p) (hP : P ≠ Point.identity) (hQ : Q ≠ Point.identity)
    (hd : p ∣ slopeDen P Q) : addPoint P Q a p = .ok Point.identity :=
  addPoint_zero_den hP hQ ((red_eq_zero_iff hp).mpr hd)

theorem addPoint_eq_nonInvertible_of_gcd (hp : 0 < p) (hP : P ≠ Point.identity) (hQ : Q ≠ Point.identity)
    (hd : ¬p ∣ slopeDen P Q) (hg : Int.gcd (slopeDen P Q) p ≠ 1) : addPoint P Q a p = .error .nonInvertible :=
  addPoint_nonInvertible hP hQ (mt (red_eq_zero_iff hp).mp hd) (by rwa [gcdOf_red hp])

theorem addPoint_onSlope_of_gcd (hp : 2 ≤ p) (hP : P ≠ Point.identity) (hQ : Q ≠ Point.identity)
    (hg : Int.gcd (slopeDen P Q) p = 1) :
    ∃ R, addPoint P Q a p = .ok R ∧ OnSlope p (slopeNum P Q a) (slopeDen P Q) P Q R := by
  obtain ⟨u, hu⟩ := inv_ok_of_gcd hp hg
  exact ⟨_, addPoint_unit hP hQ hu, onSlope_of_unit hp hu⟩

end

/-- Settles O45: the two structural tests, then the three verdicts on the denominator. -/
theorem addPointCases : Obligations.AddPointCases := by
  intro P Q a p num den hp
  have hp0 : 0 < p := by omega
  refine ⟨?_, ?_, fun hP hQ hdbl hchord => ?_⟩
  · rintro rfl
    exact addPoint_identity_left Q a p
  · rintro - rfl
    exact addPoint_identity_right P a p
  · obtain ⟨rfl, rfl⟩ := slope_eq_of_cases hdbl hchord
    exact ⟨addPoint_eq_identity_of_dvd hp0 hP hQ, addPoint_eq_nonInvertible_of_gcd hp0 hP hQ,
      addPoint_onSlope_of_gcd hp hP hQ⟩

/-! ### PADD commits or raises what `addPoint` answers (R72) -/

/-- A command that commits a point that fits leaves that point in the result pair, and all but `XR`, `YR` and `STATUS`
as it was (10_state.md R18). -/
theorem completesWith_of_commitPoint {i : Instr} {s : State} {q : Point} {R : Point → Prop} (hI : s.Inv)
    (h : exec i s = .next (s.commitPoint q)) (hq : q.Fits s.nw) (hR : R q) : CompletesWith i s R :=
  ⟨_, h, by rwa [State.result_commitPoint hI.width hq], s.commitPoint_completedOk q, rfl, s.commitPoint_frame q⟩

theorem exec_padd {s : State} (h : 2 ≤ s.value .rp) :
    exec .padd s = .next (s.commitOrRaise (addPoint s.point1 s.point2 (s.value .ra) (s.value .rp))) :=
  congrArg Host.Outcome.next (State.withModulus_go h)

/-- A raw copy fits because the operands do, a computed point because the modulus does (40_field_pipeline.md R60). -/
theorem padd_completesWith {s : State} {q : Point} {R : Point → Prop} (hI : s.Inv) (hp : 2 ≤ s.value .rp)
    (hq : addPoint s.point1 s.point2 (s.value .ra) (s.value .rp) = .ok q) (hR : R q) : CompletesWith .padd s R := by
  have hfits : q.Fits s.nw :=
    addPoint_fits hp (hI.value_range (r := .rp) rfl).2 hI.point1_fits hI.point2_fits hq
  exact completesWith_of_commitPoint hI (by rw [exec_padd hp, hq]; rfl) hfits hR

theorem padd_trapsWith {s : State} {e : CmdError} (hp : 2 ≤ s.value .rp)
    (he : addPoint s.point1 s.point2 (s.value .ra) (s.value .rp) = .error e) : TrapsWith .padd s e :=
  trapsWith_of_raise (by rw [exec_padd hp, he]; rfl)

/-- Settles O23: PADD carries each case of `addPoint` to the result pair or to `STATUS`. -/
theorem paddAddsTheOperands : Obligations.PaddAddsTheOperands := by
  refine ⟨rfl, ?_⟩
  rintro s _ _ _ _ num den hI rfl rfl rfl rfl hnum hden
  refine ⟨trapsWith_invalidModulus .padd, fun hp => ?_⟩
  obtain ⟨hleft, hright, hslope⟩ := addPointCases s.point1 s.point2 (s.value .ra) (s.value .rp) num den hp
  have hcases := fun hP hQ => hslope hP hQ (fun h => ⟨hnum.trans (if_pos h), hden.trans (if_pos h)⟩)
    (fun h => ⟨hnum.trans (if_neg h), hden.trans (if_neg h)⟩)
  refine ⟨fun hP => ?_, fun hP hQ => ?_, fun hP hQ hd => ?_, fun hP hQ hd hg => ?_, fun hP hQ hg => ?_⟩
  · exact padd_completesWith hI hp (hleft hP) rfl
  · exact padd_completesWith hI hp (hright hP hQ) rfl
  · obtain ⟨hzero, -, -⟩ := hcases hP hQ
    exact padd_completesWith hI hp (hzero hd) rfl
  · obtain ⟨-, hnon, -⟩ := hcases hP hQ
    exact padd_trapsWith hp (hnon hd hg)
  · obtain ⟨-, -, hunit⟩ := hcases hP hQ
    obtain ⟨R, hadd, hR⟩ := hunit hg
    exact padd_completesWith hI hp hadd hR

end Sys2Proof.Machine
end

section
/-! PROOFS. The statements of 42_scalar_mul.md: `multiplyPoint`'s loop over the working scalar is double-and-add over the
scalar's binary digits (R80). -/

namespace Sys2Proof.Machine

theorem bits_length_eq_bitlen (k : Nat) : k.bits.length = bitlen k := by
  rw [bitlen_eq_size, Nat.size_eq_bits_len]

/-- `s[0]` and then the digits of `s >> 1`. -/
theorem bits_eq_cons_half {k : Nat} (h : k ≠ 0) : k.bits = decide (k % 2 = 1) :: (k / 2).bits := by
  obtain ⟨m, rfl | rfl⟩ := Nat.even_or_odd' k
  · rw [Nat.bit0_bits m (by omega)]
    simp
  · rw [Nat.bit1_bits, Nat.mul_add_mod, Nat.mul_add_div two_pos]
    simp

/-- Double-and-add's work on one digit is one iteration of the loop; an error ends both. -/
theorem doubleAndAdd_cons (a p : Int) (bits : List Bool) (l : PmulLoop) :
    doubleAndAdd a p (decide (l.s % 2 = 1) :: bits) l.t l.d =
      (l.iterate a p).bind fun l' => doubleAndAdd a p bits l'.t l'.d := by
  by_cases hbit : l.s % 2 = 1
  · simp only [doubleAndAdd, PmulLoop.iterate, hbit, decide_true, if_true]
    cases addPoint l.t l.d a p with
    | error e => rfl
    | ok t => cases addPoint l.d l.d a p <;> rfl
  · simp only [doubleAndAdd, PmulLoop.iterate, hbit, decide_false, Bool.false_eq_true, if_false]
    cases addPoint l.d l.d a p <;> rfl

/-- From any loop position, the rest of the loop is double-and-add over the digits that are left: each iteration uses up
the least significant of them. -/
theorem finish_eq_doubleAndAdd (a p : Int) (l : PmulLoop) :
    l.finish a p = (doubleAndAdd a p l.s.bits l.t l.d).map fun T => ⟨red T.x p, red T.y p⟩ := by
  induction hs : l.s using Nat.strong_induction_on generalizing l with
  | _ s ih =>
    subst hs
    by_cases h0 : l.s = 0
    · rw [finish_done h0, h0, Nat.zero_bits]
      rfl
    · rw [bits_eq_cons_half h0, doubleAndAdd_cons]
      cases hi : l.iterate a p with
      | error e =>
        rw [finish_iterate_error h0 hi]
        rfl
      | ok l' =>
        rw [finish_iterate h0 hi]
        exact ih (l.s / 2) (by omega) l' (iterate_s hi)

/-- Settles O27: the loop's start holds `O`, `P` and all digits of the scalar. -/
theorem multiplyPointIsDoubleAndAdd : Obligations.MultiplyPointIsDoubleAndAdd := by
  intro P k a p
  refine ⟨bits_length_eq_bitlen k, ?_⟩
  have h : multiplyPoint P k a p = (doubleAndAdd a p k.bits ⟨0, 0⟩ P).map fun T => ⟨red T.x p, red T.y p⟩ :=
    finish_eq_doubleAndAdd a p (PmulLoop.start P k)
  rw [h]
  cases doubleAndAdd a p k.bits ⟨0, 0⟩ P <;> rfl

end Sys2Proof.Machine
end

section
/-! PROOFS. The statements of 60_exceptions.md: InvalidModulus is raised by the test of the modulus and by nothing after
it (R113). -/

namespace Sys2Proof.Machine

/-! ### What a command raises once the modulus has passed its test -/

theorem CmdError.code_eq_two_iff {e : CmdError} : e.code = 2#4 ↔ e = .invalidModulus := by
  cases e <;> decide

theorem exec_pdbl {s : State} (h : 2 ≤ s.value .rp) :
    exec .pdbl s = .next (s.commitOrRaise (addPoint s.point1 s.point1 (s.value .ra) (s.value .rp))) :=
  congrArg Host.Outcome.next (State.withModulus_go h)

theorem exec_pmul {s : State} (h : 2 ≤ s.value .rp) :
    exec .pmul s = .next (s.commitOrRaise (s.pmulLoop.finish (s.value .ra) (s.value .rp))) :=
  congrArg Host.Outcome.next (State.withModulus_go h)

/-- A point function whose only error is NonInvertible ends its command without error or with that one. -/
theorem State.commitOrRaise_completed_nonInvertible {s : State} {r : Except CmdError Point}
    (h : ∀ {e}, r = .error e → e = .nonInvertible) :
    CompletedOk s (s.commitOrRaise r) ∨
      ∃ e, (e = .undefinedInverse ∨ e = .nonInvertible) ∧ CompletedErr e s (s.commitOrRaise r) := by
  cases r with
  | ok q => exact .inl (s.commitPoint_completedOk q)
  | error e => exact .inr ⟨e, .inr (h rfl), s.raise_completedErr e⟩

/-- With a legal modulus a command completes, and the only errors left are those of an inversion. -/
theorem exec_completed_of_legal_modulus (i : Instr) {s : State} (hp : 2 ≤ s.value .rp) :
    ∃ t, exec i s = .next t ∧
      (CompletedOk s t ∨ ∃ e, (e = .undefinedInverse ∨ e = .nonInvertible) ∧ CompletedErr e s t) := by
  cases i with
  | fred => exact ⟨_, exec_fred hp, .inl (s.commitX_completedOk _)⟩
  | finv =>
    cases hv : inv (s.value .x1) (s.value .rp) with
    | ok u => exact ⟨_, exec_finv_of_inv_ok hp hv, .inl (s.commitX_completedOk u)⟩
    | error e =>
      have he : e = .undefinedInverse ∨ e = .nonInvertible := (inv_error_cases hv).imp And.left And.left
      exact ⟨_, exec_finv_of_inv_error hp hv, .inr ⟨e, he, s.raise_completedErr e⟩⟩
  | padd => exact ⟨_, exec_padd hp, State.commitOrRaise_completed_nonInvertible addPoint_error⟩
  | pdbl => exact ⟨_, exec_pdbl hp, State.commitOrRaise_completed_nonInvertible addPoint_error⟩
  | pmul => exact ⟨_, exec_pmul hp, State.commitOrRaise_completed_nonInvertible finish_error⟩

/-- Settles O28: the first test raises InvalidModulus, and what follows it raises an inversion's errors only. -/
theorem smallModulusIsInvalid : Obligations.SmallModulusIsInvalid := by
  refine fun i s => ⟨trapsWith_invalidModulus i, fun hp h0 => ?_⟩
  obtain ⟨t, ht, hc⟩ := exec_completed_of_legal_modulus i hp
  refine ⟨t, ht, ?_⟩
  rcases hc with ⟨-, -, -, hcode, -⟩ | ⟨e, he, -, -, -, hcode, -⟩
  · rw [hcode, h0]
    decide
  · rw [hcode, Ne, CmdError.code_eq_two_iff]
    rcases he with rfl | rfl <;> decide

end Sys2Proof.Machine
end

section
/-! PROOFS. The statements of 70_reset_and_hazards.md: a busy engine drops the host's writes to `CMD` and to the operand
registers (R135). -/

namespace Sys2Proof.Machine

/-! ### The host's writes that an engine at work drops -/

/-- Such a write is a word the port admits, at `CMD` or in one of the registers `RP` to `K`. -/
theorem Event.writesEngine_cases {nw : Nat} {e : Event} (h : e.writesEngine nw = true) :
    ∃ off size v, e = .host (.write off size v) ∧ admitted nw off size = true ∧
      (locate nw off = .cmd ∨ ∃ r j, locate nw off = .data r j ∧ r.hostWritable = true) := by
  cases e with
  | host t =>
    cases t with
    | read off size => cases h
    | write off size v =>
      obtain ⟨hadm, hloc⟩ := Bool.and_eq_true_iff.mp h
      refine ⟨off, size, v, rfl, hadm, ?_⟩
      cases hl : locate nw off with
      | cmd => exact .inl rfl
      | status => rw [hl] at hloc; cases hloc
      | data r j => rw [hl] at hloc; exact .inr ⟨r, j, rfl, hloc⟩
      | reserved => rw [hl] at hloc; cases hloc
  | reset => cases h
  | work => cases h
  | complete => cases h

/-- A busy engine drops the word, wherever among those places it falls. -/
theorem State.writeWord_of_busy {s : State} {off : Nat} (v : Word) (hb : s.status.busy = true)
    (hl : locate s.nw off = .cmd ∨ ∃ r j, locate s.nw off = .data r j ∧ r.hostWritable = true) :
    s.writeWord off v = s.dropWrite := by
  rcases hl with hc | ⟨r, j, hd, hw⟩
  · rw [State.writeWord_cmd v (locate_eq_cmd hc), State.writeCmd_of_busy v hb]
  · rw [State.writeWord_data v hd, State.writeReg_of_busy j v hw hb]

/-- Settles O16: the port serves the write and answers without an error, and the engine drops it. -/
theorem busyEngineDropsHostWrites : Obligations.BusyEngineDropsHostWrites := by
  intro s e rest hb ha he
  obtain ⟨off, size, v, rfl, hadm, hl⟩ := Event.writesEngine_cases he
  rw [step_write_admitted ha hadm, State.writeWord_of_busy (s := { s with agenda := rest }) v hb hl]
  rfl

end Sys2Proof.Machine
end

section
/-! PROOFS. The two invariants: `Inv` (10_state.md R10, R16, R20) and the track of PMUL's hidden loop (42_scalar_mul.md R80)
hold after reset, and every step keeps them. -/

namespace Sys2Proof.Machine

/-! ### The status invariants of 10_state.md R16 and the code range of 60_exceptions.md R111 -/

/-- The clauses of `State.Inv` that speak of `STATUS` alone. -/
structure Status.Consistent (st : Status) : Prop where
  exclusive : ¬(st.busy = true ∧ st.done = true)
  errDone : st.err = true → st.done = true
  errcodeErr : st.errcode ≠ 0#4 ↔ st.err = true
  errcodeRange : st.errcode.toNat ≤ 4

theorem Status.consistent_zero : Status.zero.Consistent := by
  constructor <;> simp [Status.zero]

theorem Status.consistent_accepted (st : Status) : st.accepted.Consistent := by
  constructor <;> simp [Status.accepted]

theorem Status.Consistent.completed {st : Status} (h : st.Consistent) : st.completed.Consistent :=
  { exclusive := by simp [Status.completed]
    errDone := fun _ => rfl
    errcodeErr := h.errcodeErr
    errcodeRange := h.errcodeRange }

theorem CmdError.code_range (e : CmdError) : e.code ≠ 0#4 ∧ e.code.toNat ≤ 4 := by
  cases e <;> decide

theorem Status.consistent_failed (e : CmdError) (st : Status) : (st.failed e).Consistent :=
  { exclusive := by simp [Status.failed]
    errDone := fun _ => rfl
    errcodeErr := iff_of_true e.code_range.1 rfl
    errcodeRange := e.code_range.2 }

theorem Status.Consistent.overrun {st : Status} (h : st.Consistent) : st.overrun.Consistent :=
  ⟨h.exclusive, h.errDone, h.errcodeErr, h.errcodeRange⟩

theorem State.Inv.consistent {s : State} (hI : s.Inv) : s.status.Consistent :=
  ⟨hI.exclusive, hI.errDone, hI.errcodeErr, hI.errcodeRange⟩

/-- A command in progress has no error yet. -/
theorem State.Inv.no_error_of_busy {s : State} (hI : s.Inv) (hb : s.status.busy = true) :
    s.status.err = false ∧ s.status.errcode = 0#4 := by
  have herr : s.status.err ≠ true := fun he => hI.exclusive ⟨hb, hI.errDone he⟩
  exact ⟨Bool.eq_false_iff.mpr herr, not_not.mp (mt hI.errcodeErr.mp herr)⟩

/-! ### The invariant under the operations on the state -/

/-- Every register of `g` has `n` words. -/
def Regs.HaveWidth (n : Nat) (g : Regs) : Prop := ∀ r, (g.get r).length = n

theorem Regs.haveWidth_zero (n : Nat) : (Regs.zero n).HaveWidth n := fun r => by
  rw [Regs.get_zero, List.length_replicate]

theorem Regs.HaveWidth.set {n : Nat} {g : Regs} (h : g.HaveWidth n) (r : RegName) {p : Pattern} (hp : p.length = n) :
    (g.set r p).HaveWidth n := by
  intro r'
  by_cases hr : r' = r
  · rw [hr, Regs.get_set_self, hp]
  · rw [Regs.get_set_ne _ _ _ _ hr, h]

/-- With a dead hidden loop the invariant speaks of the registers and `STATUS` only. -/
theorem State.Inv.of_loop_idle {s : State} (hw : 1 ≤ s.nw) (hr : s.regs.HaveWidth s.nw) (hst : s.status.Consistent)
    (hl : s.loop = PmulLoop.idle) : s.Inv :=
  { width := hw, regs := hr, exclusive := hst.exclusive, errDone := hst.errDone, errcodeErr := hst.errcodeErr
    errcodeRange := hst.errcodeRange
    loopLive := fun h => by rw [hl] at h; cases h
    loopDead := fun _ => hl }

theorem State.inv_resetOf {nw : Nat} (hn : 1 ≤ nw) : (State.resetOf nw).Inv :=
  .of_loop_idle hn (Regs.haveWidth_zero nw) Status.consistent_zero rfl

section
variable {s : State} (hI : s.Inv)
include hI

/-- The port's answer and the events to come are no part of the invariant. -/
theorem State.Inv.with_outside (ρ : Reply) (es : List Event) : ({ s with reply := ρ, agenda := es } : State).Inv :=
  ⟨hI.width, hI.regs, hI.exclusive, hI.errDone, hI.errcodeErr, hI.errcodeRange, hI.loopLive, hI.loopDead⟩

theorem State.Inv.with_reply (ρ : Reply) : ({ s with reply := ρ } : State).Inv := hI.with_outside ρ s.agenda

theorem State.Inv.with_agenda (es : List Event) : ({ s with agenda := es } : State).Inv := hI.with_outside s.reply es

theorem State.Inv.applyReset : s.applyReset.Inv :=
  .of_loop_idle hI.width (Regs.haveWidth_zero s.nw) Status.consistent_zero rfl

theorem State.Inv.accept (c : Word) : (s.accept c).Inv :=
  .of_loop_idle hI.width hI.regs s.status.consistent_accepted rfl

theorem State.Inv.raise (e : CmdError) : (s.raise e).Inv :=
  .of_loop_idle hI.width hI.regs (s.status.consistent_failed e) rfl

theorem State.Inv.commitX (v : Int) : (s.commitX v).Inv :=
  .of_loop_idle hI.width (Regs.HaveWidth.set hI.regs .xr (tcPattern_length ..)) hI.consistent.completed rfl

theorem State.Inv.commitPoint (q : Point) : (s.commitPoint q).Inv :=
  have hx : (s.regs.set .xr (tcPattern s.nw q.x)).HaveWidth s.nw := Regs.HaveWidth.set hI.regs .xr (tcPattern_length ..)
  .of_loop_idle hI.width (hx.set .yr (tcPattern_length ..)) hI.consistent.completed rfl

theorem State.Inv.dropWrite : s.dropWrite.Inv :=
  have hst := hI.consistent.overrun
  ⟨hI.width, hI.regs, hst.exclusive, hst.errDone, hst.errcodeErr, hst.errcodeRange, hI.loopLive, hI.loopDead⟩

/-- The host's write of one word of a register to an idle engine. -/
theorem State.Inv.setWord (hb : s.status.busy = false) (r : RegName) (j : Nat) (v : Word) :
    ({ s with regs := s.regs.set r ((s.regs.get r).set j v) } : State).Inv :=
  have hp : ((s.regs.get r).set j v).length = s.nw := by rw [List.length_set, hI.regs]
  .of_loop_idle hI.width (Regs.HaveWidth.set hI.regs r hp) hI.consistent (hI.loop_idle hb)

/-- A hidden loop that is live during a PMUL with a legal modulus (10_state.md R20). -/
theorem State.Inv.with_loop (hb : s.status.busy = true) (hd : decode s.op = .ok .pmul) (hp : 2 ≤ s.value .rp)
    {l : PmulLoop} (hl : l.live = true) : ({ s with loop := l } : State).Inv :=
  { width := hI.width, regs := hI.regs, exclusive := hI.exclusive, errDone := hI.errDone, errcodeErr := hI.errcodeErr
    errcodeRange := hI.errcodeRange
    loopLive := fun _ => ⟨hb, hd, hp⟩
    loopDead := fun h => by rw [hl] at h; cases h }

end

/-! ### What an event does to a state, as one of the named operations -/

/-- What a command that answers `t` has done. -/
theorem exec_next_cases {i : Instr} {s t : State} (h : exec i s = .next t) :
    (∃ e, e ≠ CmdError.illegalCommand ∧ t = s.raise e) ∨
      (2 ≤ s.value .rp ∧ ∃ v, (0 ≤ v ∧ v < s.value .rp) ∧ (i = .fred ∨ i = .finv) ∧ t = s.commitX v) ∨
      (2 ≤ s.value .rp ∧ ∃ q, (i = .padd ∨ i = .pdbl ∨ i = .pmul) ∧ t = s.commitPoint q) := by
  obtain ⟨t', ht, hc⟩ := exec_cases i s
  rwa [Host.Outcome.next.inj (ht.symm.trans h)] at hc

/-- What a completion step that answers `t` has done. -/
theorem State.completeStep_next_cases {s t : State} (h : s.completeStep = .next t) :
    (s.status.busy = false ∧ t = s) ∨
      (s.status.busy = true ∧
        ((∃ e, t = s.raise e) ∨
          (2 ≤ s.value .rp ∧ ∃ v, (0 ≤ v ∧ v < s.value .rp) ∧ t = s.commitX v) ∨
          (2 ≤ s.value .rp ∧ ∃ q, t = s.commitPoint q))) := by
  obtain ⟨t', ht, hc⟩ := s.completeStep_cases
  rwa [Host.Outcome.next.inj (ht.symm.trans h)] at hc

/-- One event acts on the engine as one of these operations, but for the port's answer; `s` is the state with the event
used up. -/
inductive State.Effect (s : State) : State → Prop
  | nothing : s.Effect s
  | reset : s.Effect s.applyReset
  | accept (c : Word) : s.status.busy = false → s.Effect (s.accept c)
  | dropWrite : s.status.busy = true → s.Effect s.dropWrite
  | setWord (r : RegName) (j : Nat) (v : Word) : s.status.busy = false →
      s.Effect { s with regs := s.regs.set r ((s.regs.get r).set j v) }
  | raise (e : CmdError) : s.status.busy = true → s.Effect (s.raise e)
  | commitX (v : Int) : s.status.busy = true → s.Effect (s.commitX v)
  | commitPoint (q : Point) : s.status.busy = true → s.Effect (s.commitPoint q)
  | work (l : PmulLoop) : s.status.busy = true → decode s.op = .ok .pmul → 2 ≤ s.value .rp → l.live = true →
      (l = s.pmulLoop ∨ s.pmulLoop.s ≠ 0 ∧ s.pmulLoop.iterate (s.value .ra) (s.value .rp) = .ok l) →
      s.Effect { s with loop := l }

theorem State.serve_effect (s : State) (tr : Transfer) : ∃ t ρ, s.Effect t ∧ s.serve tr = { t with reply := ρ } := by
  obtain ⟨t, ρ, hs, hc⟩ := s.serve_cases tr
  refine ⟨t, ρ, ?_, hs⟩
  rcases hc with rfl | ⟨hb, rfl⟩ | ⟨hb, _, v, _, _, ⟨_, rfl⟩ | ⟨r, j, _, _, rfl⟩⟩
  · exact .nothing
  · exact .dropWrite hb
  · exact .accept v hb
  · exact .setWord r j v hb

theorem State.workStep_effect (s : State) : s.Effect s.workStep := by
  rcases s.workStep_cases with h | ⟨hb, hd, h⟩
  · rw [h]
    exact .nothing
  · rw [h]
    rcases s.pmulWork_cases with ⟨e, h'⟩ | ⟨hp, l, h', hl, hi⟩
    · rw [h']
      exact .raise e hb
    · rw [h']
      exact .work l hb hd hp hl (hi.imp_left And.right)

theorem State.completeStep_effect {s t : State} (h : s.completeStep = .next t) : s.Effect t := by
  rcases State.completeStep_next_cases h with ⟨_, rfl⟩ | ⟨hb, ⟨e, rfl⟩ | ⟨_, v, _, rfl⟩ | ⟨_, q, rfl⟩⟩
  · exact .nothing
  · exact .raise e hb
  · exact .commitX v hb
  · exact .commitPoint q hb

/-- A step uses up its event, acts by one of the named operations, and may set the port's answer. -/
theorem step_effect {s t : State} (h : step s = .next t) :
    ∃ t' ρ, State.Effect { s with agenda := s.agenda.tail } t' ∧ t = { t' with reply := ρ } := by
  rcases step_cases h with ⟨rest, ha, rfl⟩ | ⟨tr, rest, ha, rfl⟩ | ⟨rest, ha, rfl⟩ | ⟨_, hc⟩
  · rw [ha]
    exact ⟨_, _, .reset, rfl⟩
  · rw [ha]
    exact State.serve_effect _ tr
  · rw [ha]
    exact ⟨_, _, State.workStep_effect _, rfl⟩
  · exact ⟨t, t.reply, State.completeStep_effect hc, rfl⟩

/-! ### Every step keeps the invariant -/

theorem State.Inv.effect {s t : State} (hI : s.Inv) (h : s.Effect t) : t.Inv := by
  cases h with
  | nothing => exact hI
  | reset => exact hI.applyReset
  | accept c _ => exact hI.accept c
  | dropWrite _ => exact hI.dropWrite
  | setWord r j v hb => exact hI.setWord hb r j v
  | raise e _ => exact hI.raise e
  | commitX v _ => exact hI.commitX v
  | commitPoint q _ => exact hI.commitPoint q
  | work l hb hd hp hl _ => exact hI.with_loop hb hd hp hl

/-- Settles O35: each operation that an event can stand for keeps the invariant. -/
theorem stepKeepsTheInvariant : Obligations.StepKeepsTheInvariant := by
  intro s t hI h
  obtain ⟨t', ρ, he, rfl⟩ := step_effect h
  exact State.Inv.with_reply ((hI.with_agenda _).effect he) ρ

/-! ### Every step keeps the hidden loop on the track of its operands -/

theorem State.LoopOnTrack.of_idle {s : State} (h : s.loop = PmulLoop.idle) : s.LoopOnTrack := fun hl => by
  rw [h] at hl
  cases hl

/-- Where a PMUL in progress stands is on the track, before its first iteration as well. -/
theorem State.LoopOnTrack.pmulLoop {s : State} (h : s.LoopOnTrack) :
    ∃ n, (PmulLoop.start s.point1 s.scalar).iterations (s.value .ra) (s.value .rp) n = .ok s.pmulLoop := by
  unfold State.pmulLoop
  split
  · exact h ‹_›
  · exact ⟨0, rfl⟩

theorem State.LoopOnTrack.effect {s t : State} (hI : s.Inv) (ht : s.LoopOnTrack) (h : s.Effect t) : t.LoopOnTrack := by
  cases h with
  | nothing => exact ht
  | reset => exact .of_idle rfl
  | accept c _ => exact .of_idle rfl
  | dropWrite _ => exact ht
  | setWord r j v hb => exact .of_idle (hI.loop_idle hb)
  | raise e _ => exact .of_idle rfl
  | commitX v _ => exact .of_idle rfl
  | commitPoint q _ => exact .of_idle rfl
  | work l _ _ _ _ hl =>
    obtain ⟨n, hn⟩ := ht.pmulLoop
    rcases hl with rfl | ⟨h0, hi⟩
    · exact fun _ => ⟨n, hn⟩
    · exact fun _ => ⟨n + 1, (iterations_snoc hn h0).trans hi⟩

/-- Settles O36: the hidden loop is dead after every operation but work, which is one more iteration, and a dropped write,
which changes no operand; an idle engine has no live loop that a write of an operand could take off its track. -/
theorem stepKeepsTheLoopOnTrack : Obligations.StepKeepsTheLoopOnTrack := by
  intro s t hI ht h
  obtain ⟨t', ρ, he, rfl⟩ := step_effect h
  have ht' : t'.LoopOnTrack := .effect (s := { s with agenda := s.agenda.tail }) (hI.with_agenda _) ht he
  exact ht'

/-- Settles O34: all registers have the width and the hidden loop is dead. -/
theorem resetMeetsTheInvariants : Obligations.ResetMeetsTheInvariants :=
  ⟨State.inv_resetOf (by decide), .of_idle rfl, fun _ hn => ⟨State.inv_resetOf hn, .of_idle rfl⟩⟩

end Sys2Proof.Machine
end

section
/-! PROOFS. The statements of 30_encoding.md on the five words (R50, R52), and those on the values of registers
(10_state.md R13) and the layout of `STATUS` (R16). -/

namespace Sys2Proof

/-! ### The decoder and the encoder are inverse (R50, R52) -/

theorem decode_encode (i : Instr) : decode (encode i) = .ok i := by
  cases i <;> decide

/-- The opcode map has one row per command. -/
theorem opcodeOf_of_decodeOpcode {op : BitVec 8} {i : Instr} (h : decodeOpcode op = .ok i) : opcodeOf i = op := by
  unfold decodeOpcode at h
  split_ifs at h with h1 h2 h3 h4 h5 <;> cases h
  · exact h1.symm
  · exact h2.symm
  · exact h3.symm
  · exact h4.symm
  · exact h5.symm

/-- A word is its zero field and its opcode. -/
theorem word_eq_append_fields (w : Word) : w = w.extractLsb' 8 24 ++ w.extractLsb' 0 8 := by
  rw [BitVec.extractLsb'_append_extractLsb'_eq_extractLsb' (by rfl)]
  exact BitVec.extractLsb'_eq_self.symm

theorem decode_eq_ok_iff {w : Word} {i : Instr} : decode w = .ok i ↔ w = encode i := by
  refine ⟨fun h => ?_, fun h => h ▸ decode_encode i⟩
  unfold decode at h
  split at h
  · rename_i hf
    have hz : w.extractLsb' 8 24 = 0#24 := beq_iff_eq.mp hf
    have hop : opcodeOf i = w.extractLsb' 0 8 := opcodeOf_of_decodeOpcode h
    rw [word_eq_append_fields w, hz, encode, hop]
  · cases h

/-- Settles O2: a word decodes to a command exactly if it is that command's word. -/
theorem decodeAndEncodeAgree : Obligations.DecodeAndEncodeAgree :=
  ⟨fun i _ => decode_encode i, fun _ _ h => (decode_eq_ok_iff.mp h).symm⟩

theorem decode_eq_ok_iff_toNat {w : Word} {i : Instr} : decode w = .ok i ↔ w.toNat = (encode i).toNat :=
  decode_eq_ok_iff.trans BitVec.toNat_inj.symm

/-- Settles O1: the five encodings, as numbers. -/
theorem decodeSelectsTheFiveWords : Obligations.DecodeSelectsTheFiveWords := fun _ =>
  ⟨decode_eq_ok_iff_toNat, decode_eq_ok_iff_toNat, decode_eq_ok_iff_toNat, decode_eq_ok_iff_toNat,
    decode_eq_ok_iff_toNat⟩

/-- Settles O3: by running the decoder on each word. -/
theorem sampleWordsDecode : Obligations.SampleWordsDecode := by
  unfold Obligations.SampleWordsDecode
  decide

end Sys2Proof

namespace Sys2Proof.Machine

/-- Settles O6: `sext_W` is injective on the patterns of one width. -/
theorem equalValuesAreEqualPatterns : Obligations.EqualValuesAreEqualPatterns :=
  fun _ _ _ hp hq => ⟨signedValue_inj hp hq, fun h => by rw [h]⟩

/-- The bits of `STATUS` above `OVR` are those of the error code, and 0 above these. -/
theorem Status.getLsbD_word_add_four (st : Status) (i : Nat) : st.word.getLsbD (4 + i) = st.errcode.getLsbD i := by
  rw [Nat.add_comm]
  simp only [Status.word, BitVec.getLsbD_append]
  simpa using BitVec.lt_of_getLsbD

/-- Settles O7: bit by bit, as `STATUS` is the concatenation of its fields. -/
theorem statusWordLayout : Obligations.StatusWordLayout := by
  intro st
  have hbit : st.word.getLsbD 0 = st.busy ∧ st.word.getLsbD 1 = st.done ∧ st.word.getLsbD 2 = st.err ∧
      st.word.getLsbD 3 = st.ovr := by
    simp only [Status.word, BitVec.getLsbD_append]
    simp
  obtain ⟨h0, h1, h2, h3⟩ := hbit
  refine ⟨h0, h1, h2, h3, BitVec.eq_of_getLsbD_eq fun i hi => ?_, BitVec.eq_of_getLsbD_eq fun i hi => ?_⟩
  · simp [hi, st.getLsbD_word_add_four]
  · have h8 : 8 + i = 4 + (4 + i) := by omega
    simp [hi, h8, st.getLsbD_word_add_four]

end Sys2Proof.Machine
end

section
/-! PROOFS. The statements of 20_memory.md on the address map (R31, R32), on reads (R33) and on reads after writes, and
those of 30_encoding.md R55 on the script lines `WR` and `RD`. -/

namespace Sys2Proof.Machine

/-! ### The address map and the window -/

/-- Settles O8: the map and `wordOffset` are inverse on aligned offsets. -/
theorem addressMapOfTheRegisterWords : Obligations.AddressMapOfTheRegisterWords :=
  fun _ r _ => ⟨locate_wordOffset r, fun _ h4 hl => (locate_data hl h4).symm⟩

/-- A smaller power of two than the window does not hold the registers. -/
theorem windowSize_le_two_pow {nw k : Nat} (h : dataEnd nw ≤ 2 ^ k) : windowSize nw ≤ 2 ^ k := by
  have hpos : dataEnd nw - 1 ≠ 0 := by unfold dataEnd; omega
  have hlog : (dataEnd nw - 1).log2 < k := (Nat.log2_lt hpos).mpr (by omega)
  exact Nat.pow_le_pow_right two_pos hlog

/-- Settles O9: the window's exponent is the bit length of the last byte's offset. -/
theorem windowIsTheSmallestPowerOfTwo : Obligations.WindowIsTheSmallestPowerOfTwo :=
  fun nw => ⟨⟨_, rfl⟩, dataEnd_le_windowSize nw, fun _ => windowSize_le_two_pow⟩

/-! ### What a read returns, by the place it reads (20_memory.md R33) -/

theorem State.serve_read_admitted {s : State} {off size : Nat} (h : admitted s.nw off size = true) :
    s.serve (.read off size) = { s with reply := .read (s.readWord off) false } := by
  simp [State.serve, h]

theorem State.readWord_cmd {s : State} {off : Nat} (h : off = cmdOffset) : s.readWord off = 0#32 := by
  simp only [h, State.readWord, locate_cmd]

theorem State.readWord_status {s : State} {off : Nat} (h : off = statusOffset) : s.readWord off = s.status.word := by
  simp only [h, State.readWord, locate_status]

theorem State.readWord_data {s : State} {off j : Nat} {r : RegName} (hl : locate s.nw off = .data r j) :
    s.readWord off = s.regWord r j := by
  simp only [State.readWord, hl]

theorem locate_of_outside {nw off : Nat} (hc : off ≠ cmdOffset) (hs : off ≠ statusOffset)
    (hout : off < 0x100 ∨ dataEnd nw ≤ off) : locate nw off = .reserved := by
  unfold locate
  rw [if_neg hc, if_neg hs, if_neg (by omega)]

/-- Settles O10: the offset's place in the address map selects the word. -/
theorem busReadReturnsTheWindowWord : Obligations.BusReadReturnsTheWindowWord := by
  intro s off rest _ ha h4 hwin
  have hadm : admitted s.nw off 4 = true := admitted_iff.mpr ⟨rfl, h4, hwin⟩
  refine ⟨s.readWord off, ?_, State.readWord_cmd, State.readWord_status, fun h1 h2 => ?_, fun hc hs hout => ?_⟩
  · rw [step_host ha, State.serve_read_admitted (s := { s with agenda := rest }) hadm]
    rfl
  · obtain ⟨r, hidx, hl⟩ := locate_of_dataRange (nw := s.nw) h1 h2
    exact ⟨r, hidx, by rw [State.readWord_data hl]; exact patternNat_word _ _⟩
  · simp only [State.readWord, locate_of_outside hc hs hout]

/-! ### A read after a write (20_memory.md sections 2 and 3) -/

theorem State.writeWord_data_of_idle {s : State} {off j : Nat} {r : RegName} (v : Word)
    (hl : locate s.nw off = .data r j) (hw : r.hostWritable = true) (hb : s.status.busy = false) :
    s.writeWord off v = { s with regs := s.regs.set r ((s.regs.get r).set j v) } := by
  rw [State.writeWord_data v hl, State.writeReg_of_idle j v hw hb]

/-- A read of a register's word after one word of the registers was replaced. -/
theorem State.readWord_setWord {s : State} {r r' : RegName} {j j' off : Nat} (v : Word)
    (hj : j < (s.regs.get r).length) (hl : locate s.nw off = .data r' j') :
    State.readWord { s with regs := s.regs.set r ((s.regs.get r).set j v) } off =
      if r' = r ∧ j' = j then v else s.readWord off := by
  rw [State.readWord_data hl]
  refine (State.readWord_data (s := { s with regs := s.regs.set r ((s.regs.get r).set j v) }) hl).trans ?_
  unfold State.regWord
  by_cases hr : r' = r
  · subst hr
    simp only [Regs.get_set_self, getD_set_word v hj, true_and]
  · rw [Regs.get_set_ne _ _ _ _ hr, if_neg fun h => hr h.1]

/-- Settles O12: an aligned offset of a register's word is that word's only one. -/
theorem windowReadAfterWrite : Obligations.WindowReadAfterWrite := by
  intro s off v r j hI hb h4 hl hw
  obtain ⟨hoff, hj⟩ := locate_data hl h4
  rw [← hI.regs r] at hj
  rw [State.writeWord_data_of_idle v hl hw hb]
  refine ⟨by rw [State.readWord_setWord v hj hl, if_pos ⟨rfl, rfl⟩], fun off' h4' hne => ?_⟩
  cases hl' : locate s.nw off' with
  | cmd => simp only [State.readWord, hl']
  | status => simp only [State.readWord, hl']
  | reserved => simp only [State.readWord, hl']
  | data r' j' =>
    have hother : ¬(r' = r ∧ j' = j) := by
      rintro ⟨rfl, rfl⟩
      exact hne ((locate_data hl' h4').1.trans hoff.symm)
    rw [State.readWord_setWord v hj hl', if_neg hother]

/-! ### The line `WR`: its words one after the other (30_encoding.md R55) -/

/-- The pattern `q` after the words of `p` at the indices `js` were written over it. -/
def overwrite (p : Pattern) (js : List Nat) (q : Pattern) : Pattern :=
  js.foldl (fun q j => q.set j (p.getD j 0#32)) q

theorem overwrite_cons (p : Pattern) (j : Nat) (js : List Nat) (q : Pattern) :
    overwrite p (j :: js) q = overwrite p js (q.set j (p.getD j 0#32)) := rfl

theorem length_overwrite (p : Pattern) (js : List Nat) (q : Pattern) : (overwrite p js q).length = q.length := by
  induction js generalizing q with
  | nil => rfl
  | cons j js ih => rw [overwrite_cons, ih, List.length_set]

theorem getD_overwrite {p : Pattern} {js : List Nat} {q : Pattern} (hjs : ∀ j ∈ js, j < q.length) (i : Nat) :
    (overwrite p js q).getD i 0#32 = if i ∈ js then p.getD i 0#32 else q.getD i 0#32 := by
  induction js generalizing q with
  | nil => simp [overwrite]
  | cons j js ih =>
    have hj : j < q.length := hjs j List.mem_cons_self
    have hrest : ∀ j' ∈ js, j' < (q.set j (p.getD j 0#32)).length := fun j' h => by
      rw [List.length_set]
      exact hjs j' (List.mem_cons_of_mem j h)
    rw [overwrite_cons, ih hrest, getD_set_word _ hj]
    by_cases hi : i = j
    · subst hi
      simp
    · simp [hi]

/-- Two patterns of one length with the same words are the same. -/
theorem pattern_ext {p q : Pattern} (hl : p.length = q.length) (h : ∀ j < p.length, p.getD j 0#32 = q.getD j 0#32) :
    p = q := by
  refine List.ext_getElem hl fun j h1 h2 => ?_
  have hj := h j h1
  rwa [List.getD_eq_getElem _ _ h1, List.getD_eq_getElem _ _ h2] at hj

/-- Writing all words of a pattern leaves that pattern. -/
theorem overwrite_range {p q : Pattern} {n : Nat} (hp : p.length = n) (hq : q.length = n) :
    overwrite p (List.range n) q = p := by
  refine pattern_ext (by rw [length_overwrite, hp, hq]) fun j hj => ?_
  rw [length_overwrite, hq] at hj
  rw [getD_overwrite (fun j' h => by rw [hq]; exact List.mem_range.mp h), if_pos (List.mem_range.mpr hj)]

/-- The port admits the word transfers at a register's words. -/
theorem admitted_wordOffset {nw j : Nat} (r : RegName) (hj : j < nw) : admitted nw (wordOffset nw r j) 4 = true := by
  refine admitted_iff.mpr ⟨rfl, ?_, (wordOffset_lt_dataEnd r hj).trans_le (dataEnd_le_windowSize nw)⟩
  have h : r.index * (4 * nw) = 4 * (r.index * nw) := Nat.mul_left_comm _ _ _
  unfold wordOffset regBytes
  omega

/-- One write of the line `WR`. -/
theorem step_writeWordOffset {s : State} {r : RegName} {j : Nat} {v : Word} {rest : List Event} (hj : j < s.nw)
    (hw : r.hostWritable = true) (hb : s.status.busy = false)
    (ha : s.agenda = .host (.write (wordOffset s.nw r j) 4 v) :: rest) :
    step s = .next { s with
      agenda := rest, reply := .write false, regs := s.regs.set r ((s.regs.get r).set j v) } := by
  rw [step_write_admitted ha (admitted_wordOffset r hj),
    State.writeWord_data_of_idle (s := { s with agenda := rest }) v (locate_wordOffset r hj) hw hb]

/-- The writes of the words of `p` at the indices `js`, to register `r`. -/
def writeWordEvents (nw : Nat) (r : RegName) (p : Pattern) (js : List Nat) : List Event :=
  js.map fun j => .host (.write (wordOffset nw r j) 4 (p.getD j 0#32))

theorem Regs.set_set (g : Regs) (r : RegName) (p q : Pattern) : (g.set r p).set r q = g.set r q := by
  cases r <;> rfl

/-- An idle engine takes such writes one by one. -/
theorem run_writeWordEvents {r : RegName} {p : Pattern} {js : List Nat} {rest : List Event}
    (hw : r.hostWritable = true) {s : State} (hjs : ∀ j ∈ js, j < s.nw) (hb : s.status.busy = false)
    (ha : s.agenda = writeWordEvents s.nw r p js ++ rest) :
    ∃ ρ, (js ≠ [] ∨ s.reply = .write false → ρ = .write false) ∧ Sys2Proof.core.run js.length s = .next { s with
      agenda := rest, reply := ρ, regs := s.regs.set r (overwrite p js (s.regs.get r)) } := by
  induction js generalizing s with
  | nil =>
    refine ⟨s.reply, fun h => h.resolve_left (not_not_intro rfl), ?_⟩
    have hs : s.regs.set r (overwrite p [] (s.regs.get r)) = s.regs := Regs.set_get_self r s.regs
    have ha' : rest = s.agenda := ha.symm
    rw [hs, ha']
    rfl
  | cons j js ih =>
    have hstep := step_writeWordOffset (hjs j List.mem_cons_self) hw hb ha
    obtain ⟨ρ, hρ, hrun⟩ := ih (s := { s with
      agenda := writeWordEvents s.nw r p js ++ rest, reply := .write false
      regs := s.regs.set r ((s.regs.get r).set j (p.getD j 0#32)) })
      (fun j' h => hjs j' (List.mem_cons_of_mem j h)) hb rfl
    refine ⟨ρ, fun _ => hρ (.inr rfl), ?_⟩
    rw [List.length_cons, core_run_succ hstep]
    refine hrun.trans ?_
    rw [Regs.get_set_self, Regs.set_set, overwrite_cons]

/-! ### The line `RD`: its reads change the port's answer only (30_encoding.md R55) -/

theorem State.serve_read (s : State) (off size : Nat) : ∃ ρ, s.serve (.read off size) = { s with reply := ρ } := by
  cases hadm : admitted s.nw off size with
  | true => exact ⟨_, State.serve_read_admitted hadm⟩
  | false => exact ⟨_, State.serve_read_refused hadm⟩

theorem step_read {s : State} {off size : Nat} {rest : List Event} (ha : s.agenda = .host (.read off size) :: rest) :
    ∃ ρ, step s = .next { s with agenda := rest, reply := ρ } := by
  obtain ⟨ρ, hρ⟩ := State.serve_read { s with agenda := rest } off size
  exact ⟨ρ, by rw [step_host ha, hρ]⟩

theorem run_reads {s : State} {offs : List Nat} {rest : List Event}
    (ha : s.agenda = (offs.map fun off => .host (.read off 4)) ++ rest) :
    ∃ ρ, Sys2Proof.core.run offs.length s = .next { s with agenda := rest, reply := ρ } := by
  induction offs generalizing s with
  | nil =>
    have ha' : rest = s.agenda := ha.symm
    exact ⟨s.reply, by rw [ha']; rfl⟩
  | cons off offs ih =>
    obtain ⟨ρ, hstep⟩ := step_read ha
    obtain ⟨ρ', hrun⟩ := ih (s := { s with agenda := (offs.map fun off => .host (.read off 4)) ++ rest, reply := ρ }) rfl
    exact ⟨ρ', by rw [List.length_cons, core_run_succ hstep]; exact hrun⟩

/-- The words read at a register's offsets are its pattern. -/
theorem State.readWords_eq_pattern {s : State} (hI : s.Inv) (r : RegName) :
    ((List.range s.nw).map fun j => s.readWord (wordOffset s.nw r j)) = s.regs.get r := by
  refine pattern_ext (by simp [hI.regs r]) fun j hj => ?_
  have hj' : j < s.nw := by simpa using hj
  rw [List.getD_eq_getElem _ _ hj, List.getElem_map, List.getElem_range, State.readWord_data (locate_wordOffset r hj')]
  rfl

/-- A value that fits its register is what the register then holds (10_state.md R11). -/
theorem State.value_of_tcPattern {s : State} {r : RegName} {v : Int} (hn : 1 ≤ s.nw)
    (hv : representable s.nw r v = true) (hr : s.regs.get r = tcPattern s.nw v) : s.value r = v := by
  unfold representable at hv
  unfold State.value
  rw [hr]
  split at hv
  · rename_i hs
    rw [if_pos hs]
    obtain ⟨h1, h2⟩ := of_decide_eq_true hv
    exact signedValue_tcPattern h1 h2 hn
  · rename_i hs
    rw [if_neg hs]
    obtain ⟨h1, h2⟩ := of_decide_eq_true hv
    exact patternNat_tcPattern_of_lt h1 h2

/-- Settles O13: `WR` overwrites every word of the register, and `RD` reads every one. -/
theorem writeAndReadLines : Obligations.WriteAndReadLines := by
  intro s r rest hI
  have hlen : (List.range s.nw).length = s.nw := List.length_range
  refine ⟨fun v hb hw hv ha => ?_, fun ha => ?_, ?_⟩
  · have hjs : ∀ j ∈ List.range s.nw, j < s.nw := fun j => List.mem_range.mp
    obtain ⟨ρ, hρ, hrun⟩ := run_writeWordEvents (p := tcPattern s.nw v) hw hjs hb ha
    have hne : List.range s.nw ≠ [] := fun h => absurd hI.width (by simp [List.range_eq_nil.mp h])
    rw [hlen, overwrite_range (tcPattern_length ..) (hI.regs r), hρ (.inl hne)] at hrun
    refine ⟨_, hrun, State.value_of_tcPattern hI.width hv (Regs.get_set_self ..), fun r' hr' => ?_, rfl⟩
    exact Regs.get_set_ne _ _ _ _ hr'
  · have ha' : s.agenda = (((List.range s.nw).map (wordOffset s.nw r)).map fun off => .host (.read off 4)) ++ rest := by
      rw [ha, List.map_map]
      rfl
    obtain ⟨ρ, hrun⟩ := run_reads ha'
    rw [List.length_map, hlen] at hrun
    exact ⟨_, hrun, rfl⟩
  · rw [State.readWords_eq_pattern hI]
    rfl

end Sys2Proof.Machine
end

section
/-! PROOFS. The statements on single steps: what sets `OVR` (10_state.md R16), how a command in progress ends (R18, R19),
what changes the results (70_reset_and_hazards.md R136) and an idle engine's `STATUS` (60_exceptions.md R118). -/

namespace Sys2Proof.Machine

/-! ### What sets `OVR` -/

/-- A write sets `OVR` only where the engine drops it. -/
theorem State.writeWord_ovr {s : State} {off : Nat} {v : Word} (h0 : s.status.ovr = false)
    (h1 : (s.writeWord off v).status.ovr = true) :
    s.status.busy = true ∧ (locate s.nw off = .cmd ∨ ∃ r j, locate s.nw off = .data r j ∧ r.hostWritable = true) := by
  have hbusy : s.status.busy = true := by
    rcases s.writeWord_cases off v with h | ⟨hb, _⟩ | ⟨_, _, h⟩ | ⟨_, _, _, _, _, h⟩
    · rw [h, h0] at h1; cases h1
    · exact hb
    · rw [h] at h1; cases h1
    · rw [h] at h1; exact absurd (h0.symm.trans h1) (by decide)
  refine ⟨hbusy, ?_⟩
  cases hl : locate s.nw off with
  | cmd => exact .inl rfl
  | status => rw [State.writeWord, hl, h0] at h1; cases h1
  | reserved => rw [State.writeWord, hl, h0] at h1; cases h1
  | data r j =>
    cases hw : r.hostWritable with
    | true => exact .inr ⟨r, j, rfl, hw⟩
    | false =>
      rw [State.writeWord_data v hl, s.writeReg_of_not_hostWritable j v hw, h0] at h1
      cases h1

/-- A transfer sets `OVR` only if it is a write that the engine drops. -/
theorem State.serve_ovr {s : State} {tr : Transfer} (h0 : s.status.ovr = false) (h1 : (s.serve tr).status.ovr = true) :
    s.status.busy = true ∧ Event.writesEngine s.nw (.host tr) = true := by
  have hkeep : ∀ ρ : Reply, ({ s with reply := ρ } : State).status.ovr ≠ true := fun _ => by simp [h0]
  cases tr with
  | read off size =>
    obtain ⟨ρ, hρ⟩ := s.serve_read off size
    exact absurd (hρ ▸ h1) (hkeep ρ)
  | write off size v =>
    cases hadm : admitted s.nw off size with
    | false => exact absurd (State.serve_write_refused v hadm ▸ h1) (hkeep _)
    | true =>
      rw [State.serve_write_admitted v hadm] at h1
      obtain ⟨hb, hl⟩ := State.writeWord_ovr h0 h1
      refine ⟨hb, ?_⟩
      rcases hl with hl | ⟨r, j, hl, hw⟩
      · simp [Event.writesEngine, hadm, hl]
      · simp [Event.writesEngine, hadm, hl, hw]

theorem State.workStep_ovr (s : State) : s.workStep.status.ovr = s.status.ovr := by
  rcases s.workStep_cases with h | ⟨_, _, h⟩
  · rw [h]
  · rw [h]
    rcases s.pmulWork_cases with ⟨e, h'⟩ | ⟨_, l, h', _⟩
    · rw [h', State.raise_status]
    · rw [h']

theorem State.completeStep_ovr {s t : State} (h : s.completeStep = .next t) : t.status.ovr = s.status.ovr := by
  rcases State.completeStep_next_cases h with ⟨_, rfl⟩ | ⟨_, ⟨e, rfl⟩ | ⟨_, v, _, rfl⟩ | ⟨_, q, rfl⟩⟩ <;> rfl

/-- Settles O17: reset clears `OVR`, the engine leaves it, and a transfer that sets it is a dropped write. -/
theorem overrunOnlyFromADroppedWrite : Obligations.OverrunOnlyFromADroppedWrite := by
  intro s t h h0 h1
  rcases step_cases h with ⟨_, _, rfl⟩ | ⟨tr, rest, ha, rfl⟩ | ⟨_, _, rfl⟩ | ⟨_, hc⟩
  · cases h1
  · obtain ⟨hb, he⟩ := State.serve_ovr (s := { s with agenda := rest }) h0 h1
    exact ⟨hb, _, rest, ha, he⟩
  · rw [State.workStep_ovr] at h1
    exact absurd (h0.symm.trans h1) (by decide)
  · rw [State.completeStep_ovr hc] at h1
    exact absurd (h0.symm.trans h1) (by decide)

/-! ### How a command in progress goes on and how it ends -/

/-- In `t`, one event after `s`, the command of `s` is still in progress. -/
structure State.GoesOn (s t : State) : Prop where
  busy : t.status.busy = true
  err : t.status.err = s.status.err
  op : t.op = s.op
  agenda : ∃ e, s.agenda = e :: t.agenda

theorem State.completeStep_of_decode_ok {s : State} {i : Instr} (hb : s.status.busy = true)
    (hd : decode s.op = .ok i) : s.completeStep = exec i s := by
  simp [State.completeStep, hb, hd]

/-- A busy engine keeps its command through every transfer (70_reset_and_hazards.md R135). -/
theorem State.serve_goesOn {s : State} {tr : Transfer} {rest : List Event} (hb : s.status.busy = true)
    (ha : s.agenda = .host tr :: rest) : s.GoesOn (State.serve tr { s with agenda := rest }) := by
  obtain ⟨t, ρ, hs, hc⟩ := State.serve_cases { s with agenda := rest } tr
  rw [hs]
  rcases hc with rfl | ⟨_, rfl⟩ | ⟨hidle, _⟩
  · exact ⟨hb, rfl, rfl, _, ha⟩
  · exact ⟨hb, rfl, rfl, _, ha⟩
  · exact absurd (hb.symm.trans hidle) (by decide)

/-- A step of a busy engine is a reset, leaves its command in progress, ends it with an error, or is `exec` of it. -/
theorem step_of_busy {s t : State} (hb : s.status.busy = true) (h : step s = .next t) :
    (∃ rest, s.agenda = .reset :: rest ∧ t = State.applyReset { s with agenda := rest }) ∨
    s.GoesOn t ∨
    (∃ e, t = State.raise e { s with agenda := s.agenda.tail }) ∨
    ∃ i, decode s.op = .ok i ∧ exec i { s with agenda := s.agenda.tail } = .next t := by
  rcases step_cases h with hr | ⟨tr, rest, ha, rfl⟩ | ⟨rest, ha, rfl⟩ | ⟨_, hc⟩
  · exact .inl hr
  · exact .inr (.inl (State.serve_goesOn hb ha))
  · rcases State.workStep_cases { s with agenda := rest } with hw | ⟨_, _, hw⟩
    · rw [hw]
      exact .inr (.inl ⟨hb, rfl, rfl, _, ha⟩)
    · rw [hw]
      rcases State.pmulWork_cases { s with agenda := rest } with ⟨e, hp⟩ | ⟨_, l, hp, _⟩
      · rw [hp, ha]
        exact .inr (.inr (.inl ⟨e, rfl⟩))
      · rw [hp]
        exact .inr (.inl ⟨hb, rfl, rfl, _, ha⟩)
  · cases hd : decode s.op with
    | error _ =>
      rw [State.completeStep_of_illegal (s := { s with agenda := s.agenda.tail }) hb hd] at hc
      exact .inr (.inr (.inl ⟨_, (Host.Outcome.next.inj hc).symm⟩))
    | ok i =>
      rw [State.completeStep_of_decode_ok (s := { s with agenda := s.agenda.tail }) hb hd] at hc
      exact .inr (.inr (.inr ⟨i, rfl, hc⟩))

/-- Settles O30: only raising an error sets `ERR`. -/
theorem errorLeavesNoPartialEffect : Obligations.ErrorLeavesNoPartialEffect := by
  intro s t hb h0 h h1
  have hraise : ∀ e, t = State.raise e { s with agenda := s.agenda.tail } →
      (∃ e : CmdError, t.status = { s.status with busy := false, done := true, err := true, errcode := e.code }) ∧
        t = { s with agenda := s.agenda.tail, status := t.status, loop := PmulLoop.idle } := by
    rintro e rfl
    exact ⟨⟨e, rfl⟩, rfl⟩
  have hkeep : t.status.err ≠ s.status.err := by rw [h0, h1]; decide
  rcases step_of_busy hb h with ⟨_, _, rfl⟩ | hgo | ⟨e, he⟩ | ⟨i, _, hx⟩
  · cases h1
  · exact absurd hgo.err hkeep
  · exact hraise e he
  · rcases exec_next_cases hx with ⟨e, _, he⟩ | ⟨_, v, _, _, rfl⟩ | ⟨_, q, _, rfl⟩
    · exact hraise e he
    · exact absurd rfl hkeep
    · exact absurd rfl hkeep

/-- What FRED and FINV write without an error: a canonical `XR` and nothing else (10_state.md R18). -/
theorem exec_field_result {i : Instr} {s t : State} (hI : s.Inv) (hi : i = .fred ∨ i = .finv) (h : exec i s = .next t)
    (herr : t.status.err = false) : t.regs.yr = s.regs.yr ∧ Canonical (s.value .rp) (t.value .xr) := by
  rcases exec_next_cases h with ⟨e, _, rfl⟩ | ⟨_, v, ⟨h0, h1⟩, _, rfl⟩ | ⟨_, q, hq, rfl⟩
  · cases herr
  · refine ⟨rfl, ?_⟩
    rw [State.value_commitX hI.width h0 h1 (hI.value_range (r := .rp) rfl).2]
    exact ⟨h0, h1⟩
  · rcases hi with rfl | rfl <;> simp at hq

/-- `STATUS` after a command that ends without error; before, it showed no error (10_state.md R16, R18). -/
theorem exec_status_of_no_error {i : Instr} {s t : State} (hI : s.Inv) (hb : s.status.busy = true)
    (h : exec i s = .next t) (herr : t.status.err = false) :
    t.status = { s.status with busy := false, done := true, err := false, errcode := 0#4 } := by
  obtain ⟨h0, hcode⟩ := hI.no_error_of_busy hb
  rcases exec_next_cases h with ⟨e, _, rfl⟩ | ⟨_, v, _, _, rfl⟩ | ⟨_, q, _, rfl⟩
  · cases herr
  · simp [h0, hcode]
  · simp [h0, hcode]

/-- Settles O31: neither a command that goes on nor an error leaves an idle engine without error, so the step was `exec`. -/
theorem completionWritesTheResult : Obligations.CompletionWritesTheResult := by
  intro s t hI hb hreset h hidle herr
  have hI' : ({ s with agenda := s.agenda.tail } : State).Inv := hI.with_agenda _
  rcases step_of_busy hb h with ⟨rest, ha, _⟩ | hgo | ⟨e, rfl⟩ | ⟨i, hd, hx⟩
  · exact absurd ha (hreset rest)
  · exact absurd (hgo.busy.symm.trans hidle) (by decide)
  · cases herr
  · have hst := exec_status_of_no_error (s := { s with agenda := s.agenda.tail }) hI' hb hx herr
    refine ⟨⟨i, hd, hx⟩, hst, fun r hxr hyr => ?_, fun hf => ?_⟩
    · exact (exec_frame hx).regs r (by simp [hxr, hyr])
    · have hi : i = .fred ∨ i = .finv := hf.imp (fun e => Except.ok.inj (hd.symm.trans e))
        fun e => Except.ok.inj (hd.symm.trans e)
      exact exec_field_result (s := { s with agenda := s.agenda.tail }) hI' hi hx herr

/-! ### What changes the results and an idle engine's `STATUS` -/

/-- No transfer writes a result register (20_memory.md R34). -/
theorem State.serve_results (s : State) (tr : Transfer) {r : RegName} (hr : r.hostWritable = false) :
    (s.serve tr).regs.get r = s.regs.get r := by
  obtain ⟨t, ρ, hs, hc⟩ := s.serve_cases tr
  rw [hs]
  rcases hc with rfl | ⟨_, rfl⟩ | ⟨_, _, _, _, _, ⟨_, rfl⟩ | ⟨r', j, _, hw, rfl⟩⟩
  · rfl
  · rfl
  · rfl
  · refine Regs.get_set_ne _ _ _ _ ?_
    rintro rfl
    exact absurd (hr.symm.trans hw) (by decide)

/-- Settles O38: transfers and work leave the results, an error does too, and what is left is reset or a completion
without error. -/
theorem resultsChangeOnlyAtCompletion : Obligations.ResultsChangeOnlyAtCompletion := by
  intro s t r h hr hne
  have hro : r.hostWritable = false := by rcases hr with rfl | rfl <;> rfl
  rcases step_cases h with ⟨rest, ha, _⟩ | ⟨tr, rest, _, rfl⟩ | ⟨rest, _, rfl⟩ | ⟨ha, hc⟩
  · exact .inl ⟨rest, ha⟩
  · exact absurd (State.serve_results _ tr hro) hne
  · exact absurd (congrArg (Regs.get · r) (State.workStep_regs_nw _).1) hne
  · rcases State.completeStep_next_cases hc with ⟨_, rfl⟩ | ⟨hb, ⟨e, rfl⟩ | ⟨_, v, _, rfl⟩ | ⟨_, q, rfl⟩⟩
    · exact absurd rfl hne
    · exact absurd rfl hne
    · exact .inr ⟨hb, ha, rfl, rfl, rfl, rfl, rfl⟩
    · exact .inr ⟨hb, ha, rfl, rfl, rfl, rfl, rfl⟩

theorem State.workStep_of_idle {s : State} (hb : s.status.busy = false) : s.workStep = s := by
  simp [State.workStep, hb]

theorem State.completeStep_of_idle {s : State} (hb : s.status.busy = false) : s.completeStep = .next s := by
  simp [State.completeStep, hb]

/-- Settles O39: in an idle engine only an accepted `CMD` write touches `STATUS`; there is nothing to work on or to
complete. -/
theorem errorStaysUntilTheNextCommand : Obligations.ErrorStaysUntilTheNextCommand := by
  intro s t hb h hreset
  rcases step_cases h with ⟨rest, ha, _⟩ | ⟨tr, rest, ha, rfl⟩ | ⟨rest, _, rfl⟩ | ⟨_, hc⟩
  · exact absurd ha (hreset rest)
  · obtain ⟨t, ρ, hs, hcases⟩ := State.serve_cases { s with agenda := rest } tr
    rw [hs]
    rcases hcases with rfl | ⟨hbusy, _⟩ | ⟨_, off, c, rfl, _, ⟨hl, rfl⟩ | ⟨r, j, _, _, rfl⟩⟩
    · exact .inl rfl
    · exact absurd (hb.symm.trans hbusy) (by decide)
    · exact .inr ⟨⟨off, c, rest, ha, hl, rfl⟩, rfl⟩
    · exact .inl rfl
  · rw [State.workStep_of_idle (s := { s with agenda := rest }) hb]
    exact .inl rfl
  · rw [State.completeStep_of_idle (s := { s with agenda := s.agenda.tail }) hb] at hc
    rw [← Host.Outcome.next.inj hc]
    exact .inl rfl

end Sys2Proof.Machine
end

section
/-! PROOFS. The statements on runs: from reset to the first completion (70_reset_and_hazards.md R131), from acceptance to
completion (R142, R144), and on what falls between (R140). -/

namespace Sys2Proof.Machine

/-! ### A run goes on, and a command in progress completes -/

/-- Settles O40: the completion step is the only one that could stop, and it does not. -/
theorem stepAlwaysHasANextState : Obligations.StepAlwaysHasANextState := by
  intro s
  have hcomplete : ∀ s' : State, ∃ t, s'.completeStep = .next t := fun s' =>
    let ⟨t, ht, _⟩ := s'.completeStep_cases
    ⟨t, ht⟩
  cases ha : s.agenda with
  | nil => exact step_nil ha ▸ hcomplete s
  | cons e rest =>
    cases e with
    | host tr => exact ⟨_, step_host ha⟩
    | reset => exact ⟨_, step_reset ha⟩
    | work => exact ⟨_, step_work ha⟩
    | complete => exact step_complete ha ▸ hcomplete _

/-- A command in progress is reset away, goes on to the next event, or completes (70_reset_and_hazards.md R142). -/
theorem step_of_busy_progress {s t : State} (hb : s.status.busy = true) (h : step s = .next t) :
    (∃ rest, s.agenda = .reset :: rest) ∨ s.GoesOn t ∨
      (t.op = s.op ∧ t.status.busy = false ∧ t.status.done = true) := by
  rcases step_of_busy hb h with ⟨rest, ha, _⟩ | hgo | ⟨e, rfl⟩ | ⟨i, _, hx⟩
  · exact .inl ⟨rest, ha⟩
  · exact .inr (.inl hgo)
  · exact .inr (.inr ⟨rfl, rfl, rfl⟩)
  · rcases exec_next_cases hx with ⟨e, _, rfl⟩ | ⟨_, v, _, _, rfl⟩ | ⟨_, q, _, rfl⟩ <;> exact .inr (.inr ⟨rfl, rfl, rfl⟩)

/-- Without a reset to come a command in progress completes: each event it outlives is used up. -/
theorem busy_completes {es : List Event} {s : State} (ha : s.agenda = es) (hb : s.status.busy = true)
    (hreset : Event.reset ∉ es) :
    ∃ n u v, n ≤ es.length ∧ Sys2Proof.core.run n s = .next u ∧ u.status.busy = true ∧ u.op = s.op ∧
      step u = .next v ∧ v.op = s.op ∧ v.status.busy = false ∧ v.status.done = true := by
  induction es generalizing s with
  | nil =>
    obtain ⟨t, ht⟩ := stepAlwaysHasANextState s
    rcases step_of_busy_progress hb ht with ⟨rest, hr⟩ | hgo | hdone
    · exact absurd (ha.symm.trans hr) (by simp)
    · obtain ⟨e, he⟩ := hgo.agenda
      exact absurd (ha.symm.trans he) (by simp)
    · exact ⟨0, s, t, le_rfl, rfl, hb, rfl, ht, hdone⟩
  | cons e es ih =>
    obtain ⟨t, ht⟩ := stepAlwaysHasANextState s
    rcases step_of_busy_progress hb ht with ⟨rest, hr⟩ | hgo | hdone
    · have he : e = .reset := (List.cons.inj (ha.symm.trans hr)).1
      exact absurd (he ▸ List.mem_cons_self) hreset
    · obtain ⟨e', he'⟩ := hgo.agenda
      have hes : t.agenda = es := (List.cons.inj (he'.symm.trans ha)).2
      obtain ⟨n, u, v, hn, hrun, hbu, hop, hstep, hopv, hdone⟩ :=
        ih hes hgo.busy (fun h => hreset (List.mem_cons_of_mem e h))
      exact ⟨n + 1, u, v, Nat.succ_le_succ hn, (core_run_succ ht n).trans hrun, hbu, hop.trans hgo.op, hstep,
        hopv.trans hgo.op, hdone⟩
    · exact ⟨0, s, t, Nat.zero_le _, rfl, hb, rfl, ht, hdone⟩

theorem State.Effect.agenda_eq {s t : State} (h : s.Effect t) : t.agenda = s.agenda := by
  cases h <;> rfl

/-- A step uses up one event. -/
theorem step_agenda {s t : State} (h : step s = .next t) : t.agenda = s.agenda.tail := by
  obtain ⟨t', ρ, he, rfl⟩ := step_effect h
  exact he.agenda_eq

theorem State.completeStep_idle {s t : State} (h : s.completeStep = .next t) : t.status.busy = false := by
  rcases State.completeStep_next_cases h with ⟨hb, rfl⟩ | ⟨_, ⟨e, rfl⟩ | ⟨_, v, _, rfl⟩ | ⟨_, q, rfl⟩⟩
  · exact hb
  · rfl
  · rfl
  · rfl

theorem run_comes_to_idle {es : List Event} {s : State} (ha : s.agenda = es) :
    ∃ t, Sys2Proof.core.run (es.length + 1) s = .next t ∧ t.status.busy = false := by
  induction es generalizing s with
  | nil =>
    obtain ⟨t, ht⟩ := stepAlwaysHasANextState s
    exact ⟨t, core_run_succ ht 0, State.completeStep_idle (step_nil ha ▸ ht)⟩
  | cons e es ih =>
    obtain ⟨t, ht⟩ := stepAlwaysHasANextState s
    have hes : t.agenda = es := (step_agenda ht).trans (by rw [ha, List.tail_cons])
    obtain ⟨u, hrun, hidle⟩ := ih hes
    exact ⟨u, (core_run_succ ht _).trans hrun, hidle⟩

/-- Settles O41: an event ends the command or is used up, and after the last one the command completes. -/
theorem everyAcceptedCommandCompletes : Obligations.EveryAcceptedCommandCompletes :=
  fun _ => ⟨busy_completes rfl, run_comes_to_idle rfl⟩

/-! ### From the host's write of `CMD` to the completion -/

theorem step_complete_of_decode_ok {s : State} {i : Instr} {rest : List Event} (hb : s.status.busy = true)
    (hd : decode s.op = .ok i) (ha : s.agenda = .complete :: rest) : step s = exec i { s with agenda := rest } := by
  rw [step_complete ha, State.completeStep_of_decode_ok (s := { s with agenda := rest }) hb hd]

/-- Settles O42: the completion step decodes the latched word. -/
theorem stepRunsTheDecodedCommand : Obligations.StepRunsTheDecodedCommand :=
  fun _ _ hb hd => ⟨fun ha => by rw [step_nil ha, State.completeStep_of_decode_ok hb hd],
    fun _ => step_complete_of_decode_ok hb hd⟩

/-- A run of one step is that step. -/
theorem core_run_one (s : State) : Sys2Proof.core.run 1 s = step s := by
  obtain ⟨t, ht⟩ := stepAlwaysHasANextState s
  exact (core_run_succ ht 0).trans ht.symm

/-- Settles O43: the write latches the word, which then decodes to the command it encodes. -/
theorem runFromCommandWriteToCompletion : Obligations.RunFromCommandWriteToCompletion := by
  intro s i rest hb ha
  rw [core_run_succ (step_writeCmd_of_idle hb ha), core_run_one]
  exact step_complete_of_decode_ok rfl (decode_encode i) rfl

/-- The engine right after reset has accepted its first command word. -/
def State.firstAccepted (nw : Nat) (c : Word) (es : List Event) : State :=
  { State.accept c { State.resetOf nw with agenda := es } with reply := .write false }

theorem State.value_firstAccepted (nw : Nat) (c : Word) (es : List Event) (r : RegName) :
    (State.firstAccepted nw c es).value r = 0 :=
  State.value_of_regs_zero (nw := nw) rfl r

/-- Settles O33: all registers are 0 after reset, so a command stops at the test of the modulus, and an illegal word
before it. -/
theorem firstCommandAfterReset : Obligations.FirstCommandAfterReset := by
  intro nw c rest
  have haccept : step { State.resetOf nw with agenda := .host (.write cmdOffset 4 c) :: .complete :: rest } =
      .next (State.firstAccepted nw c (.complete :: rest)) := step_writeCmd_of_idle rfl rfl
  refine ⟨rfl, ?_⟩
  cases hd : decode c with
  | ok i =>
    have hp : (State.firstAccepted nw c rest).value .rp < 2 := by rw [State.value_firstAccepted]; decide
    have hstep : step (State.firstAccepted nw c (.complete :: rest)) = exec i (State.firstAccepted nw c rest) :=
      step_complete_of_decode_ok rfl hd rfl
    exact ⟨_, _, haccept, rfl, rfl, hstep.trans (exec_of_small_modulus i hp), rfl, fun _ _ => rfl, fun _ => nofun⟩
  | error e =>
    have hstep : step (State.firstAccepted nw c (.complete :: rest)) =
        .next (State.raise .illegalCommand (State.firstAccepted nw c rest)) := step_complete_of_illegal rfl hd rfl
    exact ⟨_, _, haccept, rfl, rfl, hstep, rfl, fun _ => nofun, fun _ _ => rfl⟩

/-! ### Work and reads before the completion cannot be observed (70_reset_and_hazards.md R140) -/

/-- `s` with another answer on the port and other events to come: what the engine does not read. -/
def State.withOutside (ρ : Reply) (es : List Event) (s : State) : State := { s with reply := ρ, agenda := es }

theorem State.withModulus_withOutside {s : State} {ρ : Reply} {es : List Event} {go go' : Int → State}
    (h : ∀ p, go' p = (go p).withOutside ρ es) :
    (s.withOutside ρ es).withModulus go' = (s.withModulus go).withOutside ρ es := by
  by_cases hp : s.value .rp < 2
  · exact (State.withModulus_small (s := s.withOutside ρ es) hp).trans (by rw [State.withModulus_small hp]; rfl)
  · exact (State.withModulus_go (s := s.withOutside ρ es) (not_lt.mp hp)).trans
      (by rw [State.withModulus_go (not_lt.mp hp)]; exact h _)

theorem State.commitOrRaise_withOutside (s : State) (ρ : Reply) (es : List Event) (r : Except CmdError Point) :
    (s.withOutside ρ es).commitOrRaise r = (s.commitOrRaise r).withOutside ρ es := by
  cases r <;> rfl

/-- A command neither reads nor changes the port's answer and the events to come. -/
theorem exec_withOutside {i : Instr} {s t : State} (ρ : Reply) (es : List Event) (h : exec i s = .next t) :
    exec i (s.withOutside ρ es) = .next (t.withOutside ρ es) := by
  cases i with
  | fred =>
    cases h
    exact congrArg Host.Outcome.next (State.withModulus_withOutside fun _ => rfl)
  | finv =>
    cases h
    refine congrArg Host.Outcome.next (State.withModulus_withOutside fun p => ?_)
    have hv : (s.withOutside ρ es).value .x1 = s.value .x1 := rfl
    rw [hv]
    cases inv (s.value .x1) p <;> rfl
  | padd =>
    cases h
    exact congrArg Host.Outcome.next (State.withModulus_withOutside fun _ => s.commitOrRaise_withOutside ρ es _)
  | pdbl =>
    cases h
    exact congrArg Host.Outcome.next (State.withModulus_withOutside fun _ => s.commitOrRaise_withOutside ρ es _)
  | pmul =>
    cases h
    exact congrArg Host.Outcome.next (State.withModulus_withOutside fun _ => s.commitOrRaise_withOutside ρ es _)

theorem State.completeStep_withOutside {s t : State} (ρ : Reply) (es : List Event) (h : s.completeStep = .next t) :
    (s.withOutside ρ es).completeStep = .next (t.withOutside ρ es) := by
  cases hb : s.status.busy with
  | false =>
    obtain rfl : s = t := Host.Outcome.next.inj ((State.completeStep_of_idle hb).symm.trans h)
    exact State.completeStep_of_idle (s := s.withOutside ρ es) hb
  | true =>
    cases hd : decode s.op with
    | error e =>
      obtain rfl := Host.Outcome.next.inj ((State.completeStep_of_illegal hb hd).symm.trans h)
      exact State.completeStep_of_illegal (s := s.withOutside ρ es) hb hd
    | ok i =>
      rw [State.completeStep_of_decode_ok hb hd] at h
      exact (State.completeStep_of_decode_ok (s := s.withOutside ρ es) hb hd).trans (exec_withOutside ρ es h)

theorem State.pmulWork_withOutside (s : State) (ρ : Reply) (es : List Event) :
    (s.withOutside ρ es).pmulWork = s.pmulWork.withOutside ρ es := by
  refine State.withModulus_withOutside fun p => ?_
  have hl : (s.withOutside ρ es).pmulLoop = s.pmulLoop := rfl
  have ha : (s.withOutside ρ es).value .ra = s.value .ra := rfl
  rw [hl, ha]
  split
  · rfl
  · cases s.pmulLoop.iterate (s.value .ra) p <;> rfl

theorem State.workStep_of_pmul {s : State} (hb : s.status.busy = true) (hd : decode s.op = .ok .pmul) :
    s.workStep = s.pmulWork := by
  simp [State.workStep, State.engineWork, hb, hd]

theorem State.workStep_of_ne_pmul {s : State} (h : ¬(s.status.busy = true ∧ decode s.op = .ok .pmul)) :
    s.workStep = s :=
  s.workStep_cases.resolve_right fun ⟨hb, hd, _⟩ => h ⟨hb, hd⟩

theorem State.workStep_withOutside (s : State) (ρ : Reply) (es : List Event) :
    (s.withOutside ρ es).workStep = s.workStep.withOutside ρ es := by
  by_cases h : s.status.busy = true ∧ decode s.op = .ok .pmul
  · rw [State.workStep_of_pmul h.1 h.2, ← State.pmulWork_withOutside]
    exact State.workStep_of_pmul (s := s.withOutside ρ es) h.1 h.2
  · rw [State.workStep_of_ne_pmul h]
    exact State.workStep_of_ne_pmul (s := s.withOutside ρ es) h

/-- What a completion commits or raises does not depend on the hidden loop, which it clears. -/
theorem State.commitOrRaise_with_loop (s : State) (l : PmulLoop) (r : Except CmdError Point) :
    State.commitOrRaise r { s with loop := l } = s.commitOrRaise r := by
  cases r <;> rfl

/-- A PMUL ends alike from two loop positions from which the loop ends alike. -/
theorem exec_pmul_with_loop {s : State} {l : PmulLoop} (hp : 2 ≤ s.value .rp) (hl : l.live = true)
    (hf : s.pmulLoop.finish (s.value .ra) (s.value .rp) = l.finish (s.value .ra) (s.value .rp)) :
    exec .pmul { s with loop := l } = exec .pmul s := by
  have hloop : ({ s with loop := l } : State).pmulLoop = l := by simp [State.pmulLoop, hl]
  rw [exec_pmul hp, hf]
  refine (exec_pmul (s := { s with loop := l }) hp).trans ?_
  rw [hloop]
  exact congrArg Host.Outcome.next (s.commitOrRaise_with_loop l _)

/-- Work does not change how a command ends: an iteration leaves the loop's outcome as it was, and an error it meets is
the one the loop would end with. -/
theorem State.completeStep_workStep (s : State) : s.workStep.completeStep = s.completeStep := by
  by_cases h : s.status.busy = true ∧ decode s.op = .ok .pmul
  case neg => rw [State.workStep_of_ne_pmul h]
  obtain ⟨hb, hd⟩ := h
  have hcont : ∀ l : PmulLoop, 2 ≤ s.value .rp → l.live = true →
      s.pmulLoop.finish (s.value .ra) (s.value .rp) = l.finish (s.value .ra) (s.value .rp) →
      ({ s with loop := l } : State).completeStep = exec .pmul s := fun l hp hl hf =>
    (State.completeStep_of_decode_ok (s := { s with loop := l }) hb hd).trans (exec_pmul_with_loop hp hl hf)
  rw [State.workStep_of_pmul hb hd, State.completeStep_of_decode_ok hb hd]
  unfold State.pmulWork
  by_cases hp : s.value .rp < 2
  · rw [State.withModulus_small hp, exec_of_small_modulus .pmul hp]
    exact State.completeStep_of_idle rfl
  have hp2 : 2 ≤ s.value .rp := not_lt.mp hp
  rw [State.withModulus_go hp2]
  split
  · exact hcont _ hp2 s.pmulLoop_live rfl
  · rename_i h0
    cases hi : s.pmulLoop.iterate (s.value .ra) (s.value .rp) with
    | error e =>
      rw [exec_pmul hp2, finish_iterate_error h0 hi]
      exact State.completeStep_of_idle rfl
    | ok l => exact hcont l hp2 (iterate_live hi) (finish_iterate h0 hi)

/-- A passive event acts on the engine as some state that completes as before. -/
theorem step_passive {e : Event} (he : e.isPassive = true) (s : State) (ρ : Reply) (es : List Event) :
    ∃ (s' : State) (ρ' : Reply),
      step (s.withOutside ρ (e :: es)) = .next (s'.withOutside ρ' es) ∧ s'.completeStep = s.completeStep := by
  cases e with
  | work =>
    refine ⟨s.workStep, ρ, ?_, s.completeStep_workStep⟩
    rw [← State.workStep_withOutside]
    exact step_work rfl
  | host tr =>
    cases tr with
    | read off size =>
      obtain ⟨ρ', hρ⟩ := step_read (s := s.withOutside ρ (.host (.read off size) :: es)) rfl
      exact ⟨s, ρ', hρ, rfl⟩
    | write off size v => cases he
  | reset => cases he
  | complete => cases he

theorem step_complete_withOutside {s u : State} (ρ : Reply) (rest : List Event) (hu : s.completeStep = .next u) :
    step (s.withOutside ρ (.complete :: rest)) = .next (u.withOutside ρ rest) :=
  have hdone := State.completeStep_withOutside ρ rest hu
  (step_complete (s := s.withOutside ρ (.complete :: rest)) rfl).trans hdone

/-- Passive events and then the completion end as the completion alone, but for the port's answer. -/
theorem run_passive_complete {es rest : List Event} {s u : State} (hes : ∀ e ∈ es, e.isPassive = true)
    (hu : s.completeStep = .next u) (ρ : Reply) :
    ∃ ρ', Sys2Proof.core.run (es.length + 1) (s.withOutside ρ (es ++ .complete :: rest)) =
      .next (u.withOutside ρ' rest) := by
  induction es generalizing s ρ with
  | nil =>
    exact ⟨ρ, core_run_succ (step_complete_withOutside ρ rest hu) 0⟩
  | cons e es ih =>
    obtain ⟨s', ρ', hstep, hs'⟩ := step_passive (hes e List.mem_cons_self) s ρ (es ++ .complete :: rest)
    obtain ⟨ρ'', hrun⟩ := ih (fun e' h => hes e' (List.mem_cons_of_mem e h)) (hs'.trans hu) ρ'
    exact ⟨ρ'', (core_run_succ hstep _).trans hrun⟩

/-- Settles O44: no passive event changes how the engine completes. -/
theorem scheduleIsUnobservable : Obligations.ScheduleIsUnobservable := by
  intro s es rest _ hes
  obtain ⟨u, hu, _⟩ := s.completeStep_cases
  obtain ⟨ρ, hrun⟩ := run_passive_complete (rest := rest) hes hu s.reply
  exact ⟨_, _, hrun, step_complete_withOutside s.reply rest hu, rfl⟩

end Sys2Proof.Machine
end

section
/-! PROOFS. The statements of 40_field_pipeline.md on the remainder and the reduction (R61, R62), and those on the commands
PDBL (41_point_add_double.md R73) and PMUL (42_scalar_mul.md R81) and on prime moduli (60_exceptions.md R114). -/

namespace Sys2Proof.Machine

/-! ### The truncated remainder and the reduction -/

theorem remT_eq_abs (v m : Int) : remT v m = v.sign * (|v| - m * (|v| / m)) := by
  simp only [remT, Int.natCast_natAbs]

/-- The remainder is `0`, or has the sign of the dividend. -/
theorem sign_remT (v m : Int) (hm : 1 ≤ m) : remT v m = 0 ∨ (remT v m).sign = v.sign := by
  by_cases h0 : |v| % m = 0
  · left
    rw [remT_eq_abs, ← Int.emod_def, h0, mul_zero]
  · right
    have hpos : 0 < |v| % m := lt_of_le_of_ne (Int.emod_nonneg _ (by omega)) (Ne.symm h0)
    rw [remT_eq_abs, ← Int.emod_def, Int.sign_mul, Int.sign_sign, Int.sign_eq_one_of_pos hpos, mul_one]

theorem abs_remT_lt (v m : Int) (hm : 1 ≤ m) : |remT v m| < m := by
  have h0 := Int.emod_nonneg |v| (by omega : m ≠ 0)
  have h1 := Int.emod_lt_of_pos |v| (by omega : 0 < m)
  rw [remT_eq_abs, ← Int.emod_def, abs_mul, abs_of_nonneg h0]
  have hs : |v.sign| ≤ 1 := by
    rcases Int.sign_trichotomy v with h | h | h <;> rw [h] <;> decide
  nlinarith

/-- Stage 2 corrects any stage-1 remainder of the right residue to the least non-negative one (R62). -/
theorem stage_two_eq_red {v m r : Int} (hr : |r| < m) (hc : r ≡ v [ZMOD m]) :
    (if r < 0 then r + m else r) = red v m := by
  obtain ⟨h1, h2⟩ := abs_lt.mp hr
  refine ((red_eq_iff (by omega)).mpr ?_).symm
  split
  · exact ⟨⟨by omega, by omega⟩, Int.add_modEq_right.trans hc⟩
  · exact ⟨⟨by omega, by omega⟩, hc⟩

/-- Settles O18: `rem_t` is the sign times a Euclidean remainder of the absolute value. -/
theorem truncatedRemainderLaws : Obligations.TruncatedRemainderLaws :=
  ⟨fun v m hm => ⟨remT_eq_abs v m, sign_remT v m hm, abs_remT_lt v m hm⟩, fun _ _ _ _ => stage_two_eq_red, by decide⟩

/-- Settles O19: `red` is characterised by its range and its residue. -/
theorem reductionIsTheLeastResidue : Obligations.ReductionIsTheLeastResidue := by
  intro v p hp
  have hp0 : 0 < p := by omega
  have hzero : ∀ w : Int, p ∣ w → red w p = 0 := fun w => (red_eq_zero_iff hp0).mpr
  refine ⟨rfl, ⟨red_nonneg hp0, red_lt hp0, red_modEq hp0⟩, fun r h0 h1 hr => ?_, hzero 0 (dvd_zero p),
    hzero p dvd_rfl, hzero (-p) (dvd_neg.mpr dvd_rfl), ?_, red_of_canonical, pointOnLine_canonical hp0,
    fun _ _ _ _ => finish_canonical hp0⟩
  · exact ((red_eq_iff hp0).mpr ⟨⟨h0, h1⟩, hr⟩).symm
  · exact (red_eq_iff hp0).mpr ⟨⟨by omega, by omega⟩, Int.modEq_iff_dvd.mpr ⟨-1, by ring⟩⟩

/-! ### PDBL -/

theorem pdbl_completesWith {s : State} {q : Point} {R : Point → Prop} (hI : s.Inv) (hp : 2 ≤ s.value .rp)
    (hq : addPoint s.point1 s.point1 (s.value .ra) (s.value .rp) = .ok q) (hR : R q) : CompletesWith .pdbl s R := by
  have hfits : q.Fits s.nw :=
    addPoint_fits hp (hI.value_range (r := .rp) rfl).2 hI.point1_fits hI.point1_fits hq
  exact completesWith_of_commitPoint hI (by rw [exec_pdbl hp, hq]; rfl) hfits hR

theorem pdbl_trapsWith {s : State} {e : CmdError} (hp : 2 ≤ s.value .rp)
    (he : addPoint s.point1 s.point1 (s.value .ra) (s.value .rp) = .error e) : TrapsWith .pdbl s e :=
  trapsWith_of_raise (by rw [exec_pdbl hp, he]; rfl)

/-- Settles O24: PDBL carries each case of `addPoint` of equal operands to the result pair or to `STATUS`. -/
theorem pdblDoublesOperandOne : Obligations.PdblDoublesOperandOne := by
  refine ⟨rfl, ?_⟩
  rintro s _ _ _ hI rfl rfl rfl
  refine ⟨trapsWith_invalidModulus .pdbl, fun hp => ?_⟩
  obtain ⟨hO, -, hslope⟩ := addPointCases s.point1 s.point1 (s.value .ra) (s.value .rp)
    (3 * s.point1.x * s.point1.x + s.value .ra) (2 * s.point1.y) hp
  have hcases := fun hP => hslope hP hP (fun _ => ⟨rfl, rfl⟩) (absurd rfl)
  refine ⟨fun hP => ?_, fun hP hd => ?_, fun hP hd hg => ?_, fun hP hg => ?_⟩
  · exact pdbl_completesWith hI hp (hO hP) hP
  · obtain ⟨hzero, -, -⟩ := hcases hP
    exact pdbl_completesWith hI hp (hzero hd) rfl
  · obtain ⟨-, hnon, -⟩ := hcases hP
    exact pdbl_trapsWith hp (hnon hd hg)
  · obtain ⟨-, -, hunit⟩ := hcases hP
    obtain ⟨R, hadd, hR⟩ := hunit hg
    exact pdbl_completesWith hI hp hadd hR

/-- Settles O25: both commands add the first operand to one that is equal to it. -/
theorem pdblIsPaddOfEqualOperands : Obligations.PdblIsPaddOfEqualOperands := by
  intro s h
  simp only [exec, execPdbl, execPadd, ← h]

/-! ### PMUL -/

theorem exec_pmul_onTrack {s : State} (ht : s.LoopOnTrack) (hp : 2 ≤ s.value .rp) :
    exec .pmul s =
      .next (s.commitOrRaise (multiplyPoint s.point1 s.scalar (s.value .ra) (s.value .rp))) := by
  rw [exec_pmul hp, State.pmulLoop_finish ht]

theorem pmul_completesWith {s : State} {q : Point} {R : Point → Prop} (hI : s.Inv) (ht : s.LoopOnTrack)
    (hp : 2 ≤ s.value .rp) (hq : multiplyPoint s.point1 s.scalar (s.value .ra) (s.value .rp) = .ok q) (hR : R q) :
    CompletesWith .pmul s R := by
  have hfits : q.Fits s.nw :=
    Point.Canonical.fits (finish_canonical (by omega) hq) (hI.value_range (r := .rp) rfl).2
  exact completesWith_of_commitPoint hI (by rw [exec_pmul_onTrack ht hp, hq]; rfl) hfits hR

/-- With a prime modulus the multiplication has a value (40_field_pipeline.md R63). -/
theorem multiplyPoint_prime {p : Nat} (hp : p.Prime) (P : Point) (k : Nat) (a : Int) :
    ∃ R, multiplyPoint P k a p = .ok R :=
  finish_prime hp _ a

/-- The modulus as the natural number it is. -/
theorem State.exists_nat_modulus {s : State} (h : Nat.Prime (s.value .rp).toNat) :
    ∃ p : Nat, p.Prime ∧ s.value .rp = p := by
  refine ⟨_, h, (Int.toNat_of_nonneg ?_).symm⟩
  by_contra hneg
  rw [Int.toNat_of_nonpos (by omega)] at h
  exact Nat.not_prime_zero h

/-- Settles O26: PMUL on its track ends as `multiplyPoint` of its operands. -/
theorem pmulMultipliesOperandOne : Obligations.PmulMultipliesOperandOne := by
  refine ⟨rfl, fun s hI ht => ⟨trapsWith_invalidModulus .pmul, fun hp => ?_⟩⟩
  refine ⟨fun R hR => ?_, fun e he => ?_, fun hprime => ?_⟩
  · exact pmul_completesWith hI ht hp hR ⟨rfl, finish_canonical (by omega) hR⟩
  · obtain rfl : e = .nonInvertible := finish_error he
    exact trapsWith_of_raise (by rw [exec_pmul_onTrack ht hp, he]; rfl)
  · obtain ⟨p, hpr, hval⟩ := State.exists_nat_modulus hprime
    obtain ⟨R, hR⟩ := multiplyPoint_prime hpr s.point1 s.scalar (s.value .ra)
    rw [← hval] at hR
    exact pmul_completesWith hI ht hp hR hR

/-! ### No NonInvertible with a prime modulus (60_exceptions.md R114) -/

/-- With a prime modulus a command completes, and the only error left is that of the inverse of 0. -/
theorem exec_completed_of_prime_modulus (i : Instr) {s : State} {p : Nat} (hpr : p.Prime) (hval : s.value .rp = p) :
    ∃ t, exec i s = .next t ∧ (CompletedOk s t ∨ CompletedErr .undefinedInverse s t) := by
  have hp : 2 ≤ s.value .rp := by rw [hval]; exact_mod_cast hpr.two_le
  have hpoint : ∀ r : Except CmdError Point, (∃ q, r = .ok q) → exec i s = .next (s.commitOrRaise r) →
      ∃ t, exec i s = .next t ∧ (CompletedOk s t ∨ CompletedErr .undefinedInverse s t) := by
    rintro _ ⟨q, rfl⟩ h
    exact ⟨_, h, .inl (s.commitPoint_completedOk q)⟩
  cases i with
  | fred => exact ⟨_, exec_fred hp, .inl (s.commitX_completedOk _)⟩
  | finv =>
    by_cases h0 : red (s.value .x1) (s.value .rp) = 0
    · exact ⟨_, exec_finv_of_inv_error hp (inv_eq_undefined h0), .inr (s.raise_completedErr _)⟩
    · rw [hval] at h0
      obtain ⟨u, hu⟩ := inv_prime hpr h0
      rw [← hval] at hu
      exact ⟨_, exec_finv_of_inv_ok hp hu, .inl (s.commitX_completedOk u)⟩
  | padd => exact hpoint _ (hval ▸ addPoint_prime hpr _ _ _) (exec_padd hp)
  | pdbl => exact hpoint _ (hval ▸ addPoint_prime hpr _ _ _) (exec_pdbl hp)
  | pmul => exact hpoint _ (hval ▸ finish_prime hpr _ _) (exec_pmul hp)

/-- Settles O29: without an error `ERRCODE` stays 0, and the code of UndefinedInverse is another one. -/
theorem primeModulusRaisesNoNonInvertible : Obligations.PrimeModulusRaisesNoNonInvertible := by
  intro i s hprime h0
  obtain ⟨p, hpr, hval⟩ := State.exists_nat_modulus hprime
  obtain ⟨t, ht, hc⟩ := exec_completed_of_prime_modulus i hpr hval
  refine ⟨t, ht, ?_⟩
  rcases hc with ⟨-, -, -, hcode, -⟩ | ⟨-, -, -, hcode, -⟩
  · rw [hcode, h0]
    decide
  · rw [hcode]
    decide

end Sys2Proof.Machine
end

section
/-! PROOFS. The laws of `addPoint`: inverses, symmetry and residues (41_point_add_double.md R74, 40_field_pipeline.md R64),
the limits of structural comparison (R76), the chord round trip (43_host_software_context.md R96), and the two forms of the
negated point (R101). -/

namespace Sys2Proof.Machine

/-! ### Canonical values and slopes -/

theorem canonical_eq_of_modEq {p v w : Int} (hv : Canonical p v) (hw : Canonical p w) (h : v ≡ w [ZMOD p]) : v = w := by
  rwa [Int.ModEq, Int.emod_eq_of_lt hv.1 hv.2, Int.emod_eq_of_lt hw.1 hw.2] at h

theorem slopeDen_of_ne {P Q : Point} (h : P ≠ Q) : slopeDen P Q = Q.x - P.x := if_neg h

theorem slopeNum_of_ne {P Q : Point} (h : P ≠ Q) (a : Int) : slopeNum P Q a = Q.y - P.y := if_neg h

theorem slopeDen_self (P : Point) : slopeDen P P = 2 * P.y := if_pos rfl

theorem slopeNum_self (P : Point) (a : Int) : slopeNum P P a = 3 * P.x * P.x + a := if_pos rfl

/-- With a unit denominator one solution `l` of the slope decides which point lies on it. -/
theorem onSlope_of_slope {p num den l : Int} {P Q R : Point} (hg : Int.gcd den p = 1) (hp : 2 ≤ p)
    (hl : l * den ≡ num [ZMOD p]) (hR : R.Canonical p) (hx : R.x ≡ l * l - P.x - Q.x [ZMOD p])
    (hy : R.y ≡ l * (P.x - R.x) - P.y [ZMOD p]) : OnSlope p num den P Q R := by
  refine ⟨hR, fun lam hlam => ?_⟩
  obtain ⟨u, hu⟩ := inv_ok_of_gcd hp hg
  have hunit : u * den ≡ 1 [ZMOD p] := (inv_ok_spec hp hu).2
  have hsolve : ∀ m : Int, m * den ≡ num [ZMOD p] → m ≡ u * num [ZMOD p] := fun m hm =>
    calc m = m * 1 := (mul_one m).symm
      _ ≡ m * (u * den) [ZMOD p] := hunit.symm.mul_left m
      _ = u * (m * den) := by ring
      _ ≡ u * num [ZMOD p] := hm.mul_left u
  have heq : l ≡ lam [ZMOD p] := (hsolve l hl).trans (hsolve lam hlam).symm
  exact ⟨hx.trans (((heq.mul heq).sub_right _).sub_right _), hy.trans ((heq.mul_right _).sub_right _)⟩

/-- With a unit denominator two points on one slope are the same. -/
theorem onSlope_unique_of_gcd {p num den : Int} {P Q R R' : Point} (hp : 2 ≤ p) (hg : Int.gcd den p = 1)
    (h : OnSlope p num den P Q R) (h' : OnSlope p num den P Q R') : R = R' := by
  obtain ⟨u, hu⟩ := inv_ok_of_gcd hp hg
  exact onSlope_unique ⟨u, (inv_ok_spec hp hu).2⟩ h h'

/-- The line through two points, from either end. -/
theorem onSlope_symm {p : Int} {P Q R : Point} (h : OnSlope p (Q.y - P.y) (Q.x - P.x) P Q R) :
    OnSlope p (P.y - Q.y) (P.x - Q.x) Q P R := by
  obtain ⟨hR, hline⟩ := h
  refine ⟨hR, fun lam hl => ?_⟩
  have hl' : lam * (Q.x - P.x) ≡ Q.y - P.y [ZMOD p] := by
    have hneg := hl.neg
    rwa [neg_sub, ← mul_neg, neg_sub] at hneg
  obtain ⟨hx, hy⟩ := hline lam hl'
  refine ⟨by rwa [sub_right_comm] at hx, hy.trans (Int.modEq_iff_dvd.mpr ?_)⟩
  obtain ⟨c, hc⟩ := hl'.dvd
  exact ⟨-c, by linear_combination -hc⟩

/-! ### Inverses, symmetry, residues -/

/-- Different operands with one residue of x: the chord's denominator is 0 (41_point_add_double.md R76). -/
theorem addPoint_eq_identity_of_ne {P Q : Point} {a p : Int} (hp : 0 < p) (hP : P ≠ Point.identity)
    (hQ : Q ≠ Point.identity) (hne : P ≠ Q) (hx : P.x ≡ Q.x [ZMOD p]) : addPoint P Q a p = .ok Point.identity :=
  addPoint_eq_identity_of_dvd hp hP hQ (by rw [slopeDen_of_ne hne]; exact hx.dvd)

/-- Operands that are inverse in residues add to `O`, by the chord or, if they are equal, by the tangent. -/
theorem addPoint_eq_identity_of_neg {P Q : Point} {a p : Int} (hp : 0 < p) (hP : P ≠ Point.identity)
    (hQ : Q ≠ Point.identity) (hx : P.x ≡ Q.x [ZMOD p]) (hy : P.y ≡ -Q.y [ZMOD p]) :
    addPoint P Q a p = .ok Point.identity := by
  by_cases hPQ : P = Q
  · subst hPQ
    refine addPoint_eq_identity_of_dvd hp hP hP ?_
    rw [slopeDen_self]
    have hd : p ∣ -P.y - P.y := hy.dvd
    rwa [← neg_add', ← two_mul, dvd_neg] at hd
  · exact addPoint_eq_identity_of_ne hp hP hQ hPQ hx

theorem Point.ne_identity_of_y {P : Point} (h : P.y ≠ 0) : P ≠ Point.identity := fun he => h (by rw [he]; rfl)

/-- Settles O46: both forms of `-P` have the residue of `-Py`. -/
theorem addPointOfInversePairsIsIdentity : Obligations.AddPointOfInversePairsIsIdentity := by
  intro P a p hp hP h0
  have hp0 : 0 < p := by omega
  obtain ⟨-, -, hy⟩ := hP
  have hPO := Point.ne_identity_of_y h0
  refine ⟨addPoint_eq_identity_of_neg hp0 hPO (Point.ne_identity_of_y ?_) rfl ?_,
    addPoint_eq_identity_of_neg hp0 hPO (Point.ne_identity_of_y (neg_ne_zero.mpr h0)) rfl ?_⟩
  · change p - P.y ≠ 0
    omega
  · exact Int.modEq_iff_dvd.mpr ⟨-1, by ring⟩
  · rw [neg_neg]

/-- Settles O47: the chord's denominators from both ends are negatives of each other, with one verdict, and its points
agree. -/
theorem addPointIsSymmetric : Obligations.AddPointIsSymmetric := by
  intro P Q a p hp
  have hp0 : 0 < p := by omega
  by_cases hPQ : P = Q
  · rw [hPQ]
  by_cases hP : P = Point.identity
  · rw [hP, addPoint_identity_left, addPoint_identity_right]
  by_cases hQ : Q = Point.identity
  · rw [hQ, addPoint_identity_left, addPoint_identity_right]
  have hQP : Q ≠ P := Ne.symm hPQ
  have hden : slopeDen Q P = -slopeDen P Q := by rw [slopeDen_of_ne hPQ, slopeDen_of_ne hQP, neg_sub]
  by_cases hd : p ∣ slopeDen P Q
  · have hd' : p ∣ slopeDen Q P := by rwa [hden, dvd_neg]
    rw [addPoint_eq_identity_of_dvd hp0 hP hQ hd, addPoint_eq_identity_of_dvd hp0 hQ hP hd']
  have hd' : ¬p ∣ slopeDen Q P := by rwa [hden, dvd_neg]
  have hgcd : Int.gcd (slopeDen Q P) p = Int.gcd (slopeDen P Q) p := by rw [hden, Int.neg_gcd]
  by_cases hg : Int.gcd (slopeDen P Q) p = 1
  · obtain ⟨R, hR, hS⟩ := addPoint_onSlope_of_gcd (a := a) hp hP hQ hg
    obtain ⟨R', hR', hS'⟩ := addPoint_onSlope_of_gcd (a := a) hp hQ hP (hgcd.trans hg)
    rw [slopeNum_of_ne hPQ, slopeDen_of_ne hPQ] at hS
    rw [slopeNum_of_ne hQP, slopeDen_of_ne hQP] at hS'
    rw [slopeDen_of_ne hPQ] at hg
    rw [hR, hR', onSlope_unique_of_gcd hp hg hS (onSlope_symm hS')]
  · rw [addPoint_eq_nonInvertible_of_gcd hp0 hP hQ hd hg,
      addPoint_eq_nonInvertible_of_gcd hp0 hQ hP hd' (by rwa [hgcd])]

section
variable {P P' Q Q' : Point} {a a' p : Int} (hPx : P.x ≡ P'.x [ZMOD p]) (hPy : P.y ≡ P'.y [ZMOD p])
  (hQx : Q.x ≡ Q'.x [ZMOD p]) (hQy : Q.y ≡ Q'.y [ZMOD p]) (heq : P = Q ↔ P' = Q')

include hPx hPy hQx heq in
theorem slopeDen_congr : slopeDen P Q ≡ slopeDen P' Q' [ZMOD p] := by
  by_cases h : P = Q
  · rw [slopeDen, if_pos h, slopeDen, if_pos (heq.mp h)]
    exact hPy.mul_left 2
  · rw [slopeDen_of_ne h, slopeDen_of_ne (mt heq.mpr h)]
    exact hQx.sub hPx

include hPx hPy hQy heq in
theorem slopeNum_congr (ha : a ≡ a' [ZMOD p]) : slopeNum P Q a ≡ slopeNum P' Q' a' [ZMOD p] := by
  by_cases h : P = Q
  · rw [slopeNum, if_pos h, slopeNum, if_pos (heq.mp h)]
    exact ((hPx.mul_left 3).mul hPx).add ha
  · rw [slopeNum_of_ne h, slopeNum_of_ne (mt heq.mpr h)]
    exact hQy.sub hPy

include hPx hPy hQx in
theorem pointOnLine_congr (hp : 0 < p) (lam : Int) : pointOnLine P Q lam p = pointOnLine P' Q' lam p := by
  have hx : red (lam * lam - P.x - Q.x) p = red (lam * lam - P'.x - Q'.x) p :=
    red_congr hp ((hPx.sub_left _).sub hQx)
  simp only [pointOnLine, hx, red_congr hp (((hPx.sub_right _).mul_left lam).sub hPy)]

include hPx hPy hQx hQy heq in
/-- Operands other than `O` of equal residues add alike, if they meet the same case of R71. -/
theorem addPoint_congr (hp : 0 < p) (hP : P ≠ Point.identity) (hP' : P' ≠ Point.identity) (hQ : Q ≠ Point.identity)
    (hQ' : Q' ≠ Point.identity) (ha : a ≡ a' [ZMOD p]) : addPoint P Q a p = addPoint P' Q' a' p := by
  have hden : inv (slopeDen P Q) p = inv (slopeDen P' Q') p := inv_congr hp (slopeDen_congr hPx hPy hQx heq)
  have hnum : ∀ u : Int, red (slopeNum P Q a * u) p = red (slopeNum P' Q' a' * u) p := fun u =>
    red_congr hp ((slopeNum_congr hPx hPy hQy heq ha).mul_right u)
  simp only [addPoint, hP, hP', hQ, hQ', if_false, hden, hnum, pointOnLine_congr hPx hPy hQx hp]

end

/-- Settles O48: each value that a result is computed from goes through `red` or `inv`. -/
theorem resultsDependOnResidues : Obligations.ResultsDependOnResidues := by
  intro p hp
  have hp0 : 0 < p := by omega
  exact ⟨fun v w h => ⟨red_congr hp0 h, inv_congr hp0 h⟩,
    fun _ _ _ _ _ _ hP hP' hQ hQ' hPx hPy hQx hQy ha heq =>
      addPoint_congr hPx hPy hQx hQy heq hp0 hP hP' hQ hQ' ha⟩

/-! ### The limits of structural comparison (R76) -/

theorem negateRaw_ne_identity {S : Point} (h : S ≠ Point.identity) : negateRaw S ≠ Point.identity := by
  intro he
  obtain ⟨hx, hy⟩ := Point.mk.inj he
  refine h ?_
  cases S
  exact congrArg₂ Point.mk hx (neg_eq_zero.mp hy)

/-- The raw `-S` has a negative y, so a canonical `C` congruent to it is another pair, and the chord's denominator is 0. -/
theorem addPoint_negateRaw_eq_identity {S C : Point} {p : Int} (a : Int) (hp : 0 < p) (hS : S.Canonical p)
    (hC : C.Canonical p) (h0 : 0 < S.y) (hx : C.x ≡ S.x [ZMOD p]) (hy : C.y ≡ -S.y [ZMOD p]) :
    addPoint C (negateRaw S) a p = .ok Point.identity := by
  obtain ⟨-, -, hSlt⟩ := hS
  obtain ⟨-, hC0, -⟩ := hC
  have hCy : C.y ≠ 0 := fun h => by
    rw [h] at hy
    have hd : p ∣ S.y := dvd_neg.mp (by simpa using hy.dvd)
    exact absurd (Int.le_of_dvd h0 hd) (by omega)
  have hne : C ≠ negateRaw S := fun h => by
    have hCS : C.y = -S.y := congrArg Point.y h
    omega
  exact addPoint_eq_identity_of_ne hp (Point.ne_identity_of_y hCy)
    (negateRaw_ne_identity (Point.ne_identity_of_y h0.ne')) hne hx

/-- Settles O49: in each row the operands differ or have a zero denominator. -/
theorem structuralComparisonLimits : Obligations.StructuralComparisonLimits := by
  intro p hp
  have hp0 : 0 < p := by omega
  refine ⟨fun P Q a hx _ hne hP hQ => addPoint_eq_identity_of_ne hp0 hP hQ hne hx,
    fun P Q a _ hy hP hQ => ⟨fun hPQ => ?_, fun hne hd => ?_, fun hne hg => ?_⟩, fun P Q R a hO S hS => ?_,
    fun S C a hS hC h0 hx hy => addPoint_negateRaw_eq_identity a hp0 hS hC h0 hx hy⟩
  · subst hPQ
    refine addPoint_eq_identity_of_dvd hp0 hP hQ ?_
    rw [slopeDen_self]
    exact (Int.modEq_zero_iff_dvd.mp hy).mul_left 2
  · exact addPoint_eq_identity_of_dvd hp0 hP hQ (by rwa [slopeDen_of_ne hne])
  · have hline := addPoint_onSlope_of_gcd (a := a) hp hP hQ (by rwa [slopeDen_of_ne hne])
    rwa [slopeNum_of_ne hne, slopeDen_of_ne hne] at hline
  · obtain rfl : Point.identity = S := Except.ok.inj (hO.symm.trans hS)
    exact ⟨addPoint_identity_left R a p, addPoint_identity_right R a p⟩

/-! ### The chord round trip (43_host_software_context.md R96) -/

theorem gcd_eq_one_of_prime {p : Nat} (hp : p.Prime) {v : Int} (h : ¬(p : Int) ∣ v) : Int.gcd v p = 1 := by
  have hp0 : (0 : Int) < p := by exact_mod_cast hp.pos
  rw [← gcdOf_red hp0]
  exact gcdOf_eq_one_of_prime hp (mt (red_eq_zero_iff hp0).mp h)

/-- If `C` lies on the chord of `M` and `S`, then `M` lies on that of `C` and `-S`: its slope is the negative. -/
theorem onSlope_of_chord {p : Int} {M S C : Point} (hp : 2 ≤ p) (hM : M.Canonical p)
    (hg : Int.gcd (S.x - M.x) p = 1) (hg' : Int.gcd ((negateRaw S).x - C.x) p = 1)
    (h : OnSlope p (S.y - M.y) (S.x - M.x) M S C) :
    OnSlope p ((negateRaw S).y - C.y) ((negateRaw S).x - C.x) C (negateRaw S) M := by
  obtain ⟨u, hu⟩ := inv_ok_of_gcd hp hg
  have hl : (S.y - M.y) * u * (S.x - M.x) ≡ S.y - M.y [ZMOD p] := by
    have hmul := (inv_ok_spec hp hu).2.mul_left (S.y - M.y)
    rwa [mul_one, ← mul_assoc] at hmul
  generalize (S.y - M.y) * u = l at hl
  obtain ⟨hx, hy⟩ := h.2 l hl
  obtain ⟨cl, hcl⟩ := hl.dvd
  obtain ⟨cx, hcx⟩ := hx.dvd
  obtain ⟨cy, hcy⟩ := hy.dvd
  refine onSlope_of_slope (l := -l) hg' hp (Int.modEq_iff_dvd.mpr ?_) hM (Int.modEq_iff_dvd.mpr ?_)
    (Int.modEq_iff_dvd.mpr ?_)
  · exact ⟨cy - cl, by simp only [negateRaw]; linear_combination hcy - hcl⟩
  · exact ⟨cx, by simp only [negateRaw]; linear_combination hcx⟩
  · exact ⟨cy, by linear_combination hcy⟩

/-- Settles O53: both additions meet the chord case, and a chord's third point is unique. -/
theorem chordRoundTrip : Obligations.ChordRoundTrip := by
  intro p a M S C hpr hM hMO hSO hMS hadd hCO hCS
  have hp : (2 : Int) ≤ p := by exact_mod_cast hpr.two_le
  have hne : M ≠ S := fun h => hMS (by rw [h])
  have hne' : C ≠ negateRaw S := fun h => hCS (by rw [h]; rfl)
  have hg : Int.gcd (S.x - M.x) p = 1 := gcd_eq_one_of_prime hpr fun hd => hMS (Int.modEq_iff_dvd.mpr hd)
  have hg' : Int.gcd ((negateRaw S).x - C.x) p = 1 := gcd_eq_one_of_prime hpr fun hd => hCS (Int.modEq_iff_dvd.mpr hd)
  obtain ⟨C', hadd', hC'⟩ := addPoint_onSlope_of_gcd (a := a) hp hMO hSO (by rwa [slopeDen_of_ne hne])
  obtain rfl : C' = C := Except.ok.inj (hadd'.symm.trans hadd)
  rw [slopeNum_of_ne hne, slopeDen_of_ne hne] at hC'
  obtain ⟨R, hR, hRS⟩ := addPoint_onSlope_of_gcd (a := a) hp hCO (negateRaw_ne_identity hSO)
    (by rwa [slopeDen_of_ne hne'])
  rw [slopeNum_of_ne hne', slopeDen_of_ne hne'] at hRS
  rw [hR, onSlope_unique_of_gcd hp hg' hRS (onSlope_of_chord hp hM hg hg' hC')]

/-! ### The two forms of the negated point (43_host_software_context.md R101) -/

theorem negateCanonical_canonical {S : Point} {p : Int} (hp : 0 < p) (hS : S.Canonical p) :
    (negateCanonical p S).Canonical p := by
  obtain ⟨hx, h0, h1⟩ := hS
  refine ⟨hx, ?_⟩
  simp only [negateCanonical]
  split
  · exact ⟨le_rfl, hp⟩
  · exact ⟨by omega, by omega⟩

/-- Both forms of `-S` add alike to a point that is equal to neither. -/
theorem addPoint_negateAs {S C : Point} {p : Int} (a : Int) (hp : 0 < p) (hS : S.Canonical p) (hC : C ≠ Point.identity)
    (hraw : C ≠ negateAs .raw p S) (hcan : C ≠ negateAs .canonical p S) :
    addPoint C (negateAs .raw p S) a p = addPoint C (negateAs .canonical p S) a p := by
  by_cases hSO : S = Point.identity
  · rw [(negateAs_eq_identity hS).mpr hSO, (negateAs_eq_identity hS).mpr hSO]
  · have hy := (negateAs_y_modEq .raw p S).trans (negateAs_y_modEq .canonical p S).symm
    have hO : ∀ form, negateAs form p S ≠ Point.identity := fun form => mt (negateAs_eq_identity hS).mp hSO
    exact addPoint_congr rfl rfl rfl hy (iff_of_false hraw hcan) hp hC hC (hO _) (hO _) rfl

/-- The one canonical point congruent to `-S`. -/
theorem eq_negateCanonical {S C : Point} {p : Int} (hp : 0 < p) (hS : S.Canonical p) (hC : C.Canonical p)
    (hx : C.x ≡ S.x [ZMOD p]) (hy : C.y ≡ -S.y [ZMOD p]) : C = negateCanonical p S := by
  obtain ⟨hNx, hNy⟩ := negateCanonical_canonical hp hS
  have hy' : C.y ≡ (negateCanonical p S).y [ZMOD p] := hy.trans (negateAs_y_modEq .canonical p S).symm
  have ex : C.x = (negateCanonical p S).x := canonical_eq_of_modEq hC.1 hNx hx
  have ey : C.y = (negateCanonical p S).y := canonical_eq_of_modEq hC.2 hNy hy'
  cases C
  exact congrArg₂ Point.mk ex ey

/-- Settles O57: the forms have the same residues; only a point equal to one of them tells them apart. -/
theorem negationFormsOfDecrypt : Obligations.NegationFormsOfDecrypt := by
  intro p a S hp hS
  have hp0 : 0 < p := by omega
  refine ⟨fun h form => (negateAs_eq_identity hS).mpr h, negateCanonical_canonical hp0 hS,
    fun form => ⟨negateAs_x form p S, negateAs_y_modEq form p S⟩, fun C hC => addPoint_negateAs a hp0 hS hC,
    fun C h0 hC hx hy => ?_⟩
  have heq : C = negateAs .canonical p S := eq_negateCanonical hp0 hS hC hx hy
  refine ⟨heq, addPoint_negateRaw_eq_identity a hp0 hS hC h0 hx hy, by rw [← heq], fun hg => ?_⟩
  have hCO : C ≠ Point.identity := by
    rw [heq]
    exact mt (negateAs_eq_identity hS).mp (Point.ne_identity_of_y h0.ne')
  have htangent := addPoint_onSlope_of_gcd (a := a) hp hCO hCO (by rwa [slopeDen_self])
  rw [slopeNum_self, slopeDen_self] at htangent
  rwa [← heq]

end Sys2Proof.Machine
end

section
/-! PROOFS. The statements on the curve's group: `addPoint` is its addition (41_point_add_double.md R74) and `multiplyPoint`
its scalar multiplication (42_scalar_mul.md R80, R82). -/

namespace Sys2Proof.Machine

section
variable {p : Nat} [hpr : Fact p.Prime] {a b : Int}

/-! ### The engine's representation of a point -/

theorem two_le_modulus : (2 : Int) ≤ p := by exact_mod_cast hpr.out.two_le

theorem canonical_val (x : ZMod p) : Canonical p (x.val : Int) :=
  ⟨Int.natCast_nonneg _, by exact_mod_cast x.val_lt⟩

@[simp] theorem intCast_val (x : ZMod p) : (((x.val : Nat) : Int) : ZMod p) = x := by
  rw [Int.cast_natCast, ZMod.natCast_zmod_val]

theorem val_modEq_iff {x y : ZMod p} : (x.val : Int) ≡ y.val [ZMOD p] ↔ x = y := by
  rw [← ZMod.intCast_eq_intCast_iff, intCast_val, intCast_val]

theorem pointOf_canonical (A : (shortCurve p a b).Point) : (pointOf A).Canonical p := by
  cases A with
  | zero =>
    have hp0 : (0 : Int) < p := by exact_mod_cast hpr.out.pos
    exact ⟨⟨le_rfl, hp0⟩, le_rfl, hp0⟩
  | some x y h => exact ⟨canonical_val x, canonical_val y⟩

/-- The point of a slope in the field of `p` elements. -/
theorem onSlope_of_field {P Q : Point} {num den : Int} {x y l : ZMod p} (hden : ¬(p : Int) ∣ den)
    (hl : l * den = num) (hx : x = l * l - P.x - Q.x) (hy : y = l * (P.x - x) - P.y) :
    OnSlope p num den P Q ⟨x.val, y.val⟩ := by
  refine onSlope_of_slope (l := l.val) (gcd_eq_one_of_prime hpr.out hden) two_le_modulus ?_
    ⟨canonical_val x, canonical_val y⟩ ?_ ?_
  · rw [← ZMod.intCast_eq_intCast_iff]
    simpa using hl
  · rw [← ZMod.intCast_eq_intCast_iff]
    simpa using hx
  · rw [← ZMod.intCast_eq_intCast_iff]
    simpa using hy

/-- `addPoint` answers the point of the slope, computed in the field. -/
theorem addPoint_eq_of_field {P Q : Point} {x y l : ZMod p} (hP : P ≠ Point.identity) (hQ : Q ≠ Point.identity)
    (hden : ¬(p : Int) ∣ slopeDen P Q) (hl : l * (slopeDen P Q : Int) = (slopeNum P Q a : Int))
    (hx : x = l * l - P.x - Q.x) (hy : y = l * (P.x - x) - P.y) : addPoint P Q a p = .ok ⟨x.val, y.val⟩ := by
  have hg := gcd_eq_one_of_prime hpr.out hden
  obtain ⟨R, hR, hS⟩ := addPoint_onSlope_of_gcd (a := a) two_le_modulus hP hQ hg
  rw [hR, onSlope_unique_of_gcd two_le_modulus hg hS (onSlope_of_field hden hl hx hy)]

/-! ### The group law on the short curve -/

theorem shortCurve_negY (x y : ZMod p) : (shortCurve p a b).negY x y = -y := by
  simp [WeierstrassCurve.Affine.negY, shortCurve]

theorem shortCurve_addX (x₁ x₂ l : ZMod p) : (shortCurve p a b).addX x₁ x₂ l = l * l - x₁ - x₂ := by
  simp [WeierstrassCurve.Affine.addX, shortCurve, pow_two]

theorem shortCurve_addY (x₁ x₂ y₁ l : ZMod p) :
    (shortCurve p a b).addY x₁ x₂ y₁ l = l * (x₁ - (shortCurve p a b).addX x₁ x₂ l) - y₁ := by
  rw [WeierstrassCurve.Affine.addY, shortCurve_negY, WeierstrassCurve.Affine.negAddY]
  ring

theorem two_mul_ne_zero_of_ne_neg {y : ZMod p} (hy : y ≠ -y) : 2 * y ≠ 0 :=
  fun h => hy (eq_neg_of_add_eq_zero_left (by rwa [← two_mul]))

/-- The tangent's slope (41_point_add_double.md R71, case 3). -/
theorem shortCurve_slope_tangent {x y : ZMod p} (hy : y ≠ -y) :
    (shortCurve p a b).slope x x y y * (2 * y) = 3 * x * x + a := by
  have hne : y ≠ (shortCurve p a b).negY x y := by rwa [shortCurve_negY]
  rw [WeierstrassCurve.Affine.slope_of_Y_ne rfl hne, shortCurve_negY, sub_neg_eq_add, ← two_mul,
    div_mul_cancel₀ _ (two_mul_ne_zero_of_ne_neg hy)]
  simp only [shortCurve]
  ring

/-- The chord's slope (41_point_add_double.md R71, case 4). -/
theorem shortCurve_slope_chord {x₁ x₂ y₁ y₂ : ZMod p} (hx : x₁ ≠ x₂) :
    (shortCurve p a b).slope x₁ x₂ y₁ y₂ * (x₂ - x₁) = y₂ - y₁ := by
  rw [WeierstrassCurve.Affine.slope_of_X_ne hx, ← neg_sub x₁ x₂, mul_neg, div_mul_cancel₀ _ (sub_ne_zero.mpr hx),
    neg_sub]

/-- Two affine points, neither of them `(0, 0)`: the cases of R71 are those of the group law. -/
theorem addPoint_pointOf_some {x₁ y₁ x₂ y₂ : ZMod p} (h₁ : (shortCurve p a b).Nonsingular x₁ y₁)
    (h₂ : (shortCurve p a b).Nonsingular x₂ y₂) (hP : (⟨x₁.val, y₁.val⟩ : Point) ≠ Point.identity)
    (hQ : (⟨x₂.val, y₂.val⟩ : Point) ≠ Point.identity) :
    addPoint ⟨x₁.val, y₁.val⟩ ⟨x₂.val, y₂.val⟩ a p =
      .ok (pointOf (WeierstrassCurve.Affine.Point.some x₁ y₁ h₁ + WeierstrassCurve.Affine.Point.some x₂ y₂ h₂)) := by
  have hp0 : (0 : Int) < p := by exact_mod_cast hpr.out.pos
  by_cases hxy : x₁ = x₂ ∧ y₁ = (shortCurve p a b).negY x₂ y₂
  · obtain ⟨hx, hy⟩ := hxy
    rw [WeierstrassCurve.Affine.Point.add_of_Y_eq hx hy]
    rw [shortCurve_negY] at hy
    refine addPoint_eq_identity_of_neg hp0 hP hQ (val_modEq_iff.mpr hx) ?_
    rw [← ZMod.intCast_eq_intCast_iff]
    simpa using hy
  rw [WeierstrassCurve.Affine.Point.add_some hxy]
  by_cases hx : x₁ = x₂
  · have hy := WeierstrassCurve.Affine.Y_eq_of_Y_ne h₁.1 h₂.1 hx fun h => hxy ⟨hx, h⟩
    subst hx hy
    have hne : y₁ ≠ -y₁ := fun h => hxy ⟨rfl, by rwa [shortCurve_negY]⟩
    refine addPoint_eq_of_field (l := (shortCurve p a b).slope x₁ x₁ y₁ y₁) hP hQ ?_ ?_
      (by rw [shortCurve_addX, intCast_val]) (by rw [shortCurve_addY, intCast_val, intCast_val])
    · rw [slopeDen_self, ← ZMod.intCast_zmod_eq_zero_iff_dvd]
      simpa using two_mul_ne_zero_of_ne_neg hne
    · rw [slopeDen_self, slopeNum_self]
      simpa using shortCurve_slope_tangent hne
  · have hPQ : (⟨x₁.val, y₁.val⟩ : Point) ≠ ⟨x₂.val, y₂.val⟩ := fun h => by
      have hxx : (x₁.val : Int) = x₂.val := congrArg Point.x h
      exact hx (val_modEq_iff.mp (by rw [hxx]))
    refine addPoint_eq_of_field (l := (shortCurve p a b).slope x₁ x₂ y₁ y₂) hP hQ ?_ ?_
      (by rw [shortCurve_addX, intCast_val, intCast_val]) (by rw [shortCurve_addY, intCast_val, intCast_val])
    · rw [slopeDen_of_ne hPQ]
      exact fun hd => hx (val_modEq_iff.mp (Int.modEq_iff_dvd.mpr hd))
    · rw [slopeDen_of_ne hPQ, slopeNum_of_ne hPQ]
      simpa using shortCurve_slope_chord hx

/-- `addPoint` computes the group's sum, unless an operand is the affine point that the sentinel stands for. -/
theorem addPoint_pointOf {A B : (shortCurve p a b).Point} (hA : pointOf A = Point.identity → A = 0)
    (hB : pointOf B = Point.identity → B = 0) : addPoint (pointOf A) (pointOf B) a p = .ok (pointOf (A + B)) := by
  cases A with
  | zero =>
    rw [← WeierstrassCurve.Affine.Point.zero_def, zero_add]
    exact addPoint_identity_left (pointOf B) a p
  | some x₁ y₁ h₁ =>
    cases B with
    | zero =>
      rw [← WeierstrassCurve.Affine.Point.zero_def, add_zero]
      exact addPoint_identity_right _ a p
    | some x₂ y₂ h₂ =>
      have hP : pointOf (.some x₁ y₁ h₁ : (shortCurve p a b).Point) ≠ Point.identity := fun h => nomatch hA h
      have hQ : pointOf (.some x₂ y₂ h₂ : (shortCurve p a b).Point) ≠ Point.identity := fun h => nomatch hB h
      exact addPoint_pointOf_some h₁ h₂ hP hQ

/-! ### Scalar multiples -/

/-- Without `b` in the curve's equation `(0, 0)` would be on it; with `b` the sentinel stands for the identity only. -/
theorem eq_zero_of_pointOf_eq_identity (hb : ¬(p : Int) ∣ b) {A : (shortCurve p a b).Point}
    (h : pointOf A = Point.identity) : A = 0 := by
  cases A with
  | zero => rfl
  | some x y hxy =>
    exfalso
    obtain ⟨hx, hy⟩ := Point.mk.inj h
    have hx0 : x = 0 := (ZMod.val_eq_zero x).mp (Int.natCast_eq_zero.mp hx)
    have hy0 : y = 0 := (ZMod.val_eq_zero y).mp (Int.natCast_eq_zero.mp hy)
    subst hx0 hy0
    have hb0 : (b : ZMod p) = 0 := WeierstrassCurve.Affine.equation_zero.mp hxy.1
    exact hb ((ZMod.intCast_zmod_eq_zero_iff_dvd b p).mp hb0)

theorem addPoint_pointOf_of_b (hb : ¬(p : Int) ∣ b) (A B : (shortCurve p a b).Point) :
    addPoint (pointOf A) (pointOf B) a p = .ok (pointOf (A + B)) :=
  addPoint_pointOf (eq_zero_of_pointOf_eq_identity hb) (eq_zero_of_pointOf_eq_identity hb)

/-- One iteration adds `D` to `T` if the digit is 1, and doubles `D`. -/
theorem iterate_pointOf (hb : ¬(p : Int) ∣ b) {l : PmulLoop} {T D : (shortCurve p a b).Point} (ht : l.t = pointOf T)
    (hd : l.d = pointOf D) :
    l.iterate a p = .ok { live := true, t := pointOf (T + (l.s % 2) • D), d := pointOf (2 • D), s := l.s / 2 } := by
  unfold PmulLoop.iterate
  rw [ht, hd, addPoint_pointOf_of_b hb, addPoint_pointOf_of_b hb, ← two_nsmul]
  rcases Nat.mod_two_eq_zero_or_one l.s with h | h
  · simp [h]
  · simp [h]

/-- From any loop position the rest of the loop adds the working scalar's multiple of `D` to `T`. -/
theorem finish_pointOf (hb : ¬(p : Int) ∣ b) {l : PmulLoop} {T D : (shortCurve p a b).Point} (ht : l.t = pointOf T)
    (hd : l.d = pointOf D) : l.finish a p = .ok (pointOf (T + l.s • D)) := by
  induction hs : l.s using Nat.strong_induction_on generalizing l T D with
  | _ s ih =>
    subst hs
    by_cases h0 : l.s = 0
    · obtain ⟨⟨hx0, hx1⟩, hy0, hy1⟩ := pointOf_canonical T
      rw [finish_done h0, h0, zero_nsmul, add_zero, ht, red_of_canonical hx0 hx1, red_of_canonical hy0 hy1]
    · rw [finish_iterate h0 (iterate_pointOf hb ht hd), ih (l.s / 2) (by omega) rfl rfl rfl]
      have hsum : T + (l.s % 2) • D + (l.s / 2) • 2 • D = T + l.s • D := by
        rw [smul_smul, add_assoc, ← add_smul, Nat.mul_comm, Nat.mod_add_div]
      rw [hsum]

theorem multiplyPoint_pointOf (hb : ¬(p : Int) ∣ b) (A : (shortCurve p a b).Point) (k : Nat) :
    multiplyPoint (pointOf A) k a p = .ok (pointOf (k • A)) := by
  have h := finish_pointOf hb (l := PmulLoop.start (pointOf A) k) (T := 0) (D := A) rfl rfl
  rwa [zero_add] at h

end

/-- Settles O50: the four cases of R71 are the four cases of the group's addition. -/
theorem addPointIsGroupAddition : Obligations.AddPointIsGroupAddition :=
  fun _ _ _ _ _ _ => addPoint_pointOf

/-- Settles O51: `T + s·D` is the same before and after each iteration of the loop. -/
theorem multiplyPointIsScalarMultiple : Obligations.MultiplyPointIsScalarMultiple :=
  fun _ _ _ _ hb A k => multiplyPoint_pointOf hb A k

/-- A loop over `O` stays at `O`. -/
theorem finish_identity {l : PmulLoop} {a p : Int} (hp : 0 < p) (ht : l.t = Point.identity) (hd : l.d = Point.identity) :
    l.finish a p = .ok Point.identity := by
  induction hs : l.s using Nat.strong_induction_on generalizing l with
  | _ s ih =>
    subst hs
    by_cases h0 : l.s = 0
    · rw [finish_done h0, ht, Point.identity, red_of_canonical le_rfl hp]
    · have hi : l.iterate a p = .ok { live := true, t := Point.identity, d := Point.identity, s := l.s / 2 } := by
        simp [PmulLoop.iterate, ht, hd, addPoint_identity_left]
      rw [finish_iterate h0 hi]
      exact ih (l.s / 2) (by omega) rfl rfl rfl

/-- Settles O52: the laws of multiples in the group, carried over by the representation. -/
theorem scalarMultiplicationLaws : Obligations.ScalarMultiplicationLaws := by
  refine ⟨fun p _ a b hb A => ⟨?_, fun m n => ?_, fun k n => ?_⟩, fun P k a p hp => ⟨multiplyPoint_zero (by omega) P, ?_⟩⟩
  · rw [multiplyPoint_pointOf hb, addPoint_pointOf_of_b hb, two_nsmul]
  · exact ⟨_, _, _, multiplyPoint_pointOf hb A m, multiplyPoint_pointOf hb A n, addPoint_pointOf_of_b hb _ _,
      by rw [multiplyPoint_pointOf hb, add_nsmul]⟩
  · exact ⟨_, _, _, multiplyPoint_pointOf hb A k, multiplyPoint_pointOf hb A n, multiplyPoint_pointOf hb _ n,
      by rw [multiplyPoint_pointOf hb, smul_comm]⟩
  · exact finish_identity (by omega) rfl rfl

end Sys2Proof.Machine
end

section
/-! PROOFS. The statements of 43_host_software_context.md: the codecs (R91 to R95), the session (R97 to R101) and the whole
data flow (R90, R105). -/

namespace Sys2Proof.Machine

/-! ### The point codec (R94, R95) -/

theorem padOdd_of_even {vs : List Nat} (h : vs.length % 2 = 0) : padOdd vs = vs := by
  simp [padOdd, h]

theorem padOdd_even (vs : List Nat) : (padOdd vs).length % 2 = 0 := by
  unfold padOdd
  split
  · rw [List.length_append, List.length_singleton]
    omega
  · omega

theorem breakPoints_pairPoints : ∀ {vs : List Nat}, vs.length % 2 = 0 →
    breakPoints (pairPoints vs) = vs.map (Nat.cast : Nat → Int)
  | [], _ => rfl
  | [_], h => by simp at h
  | x :: y :: rest, h => by
    have hrest : rest.length % 2 = 0 := by
      rw [List.length_cons, List.length_cons] at h
      omega
    rw [pairPoints, breakPoints, List.flatMap_cons, ← breakPoints, breakPoints_pairPoints hrest]
    rfl

/-- Settles O55: an even sequence is not padded, and breaking undoes pairing. -/
theorem pointCodecRoundTrip : Obligations.PointCodecRoundTrip := fun vs h => by
  rw [generatePoints, padOdd_of_even h, breakPoints_pairPoints h]

/-! ### The digit codec (R91 to R93) -/

theorem chunkValue_append (c : List (BitVec 8)) (b : BitVec 8) :
    chunkValue (c ++ [b]) = chunkValue c * 65536 + b.toNat := by
  simp [chunkValue]

theorem chunkValue_append_div_mod (c : List (BitVec 8)) (b : BitVec 8) :
    chunkValue (c ++ [b]) / 65536 = chunkValue c ∧ chunkValue (c ++ [b]) % 65536 = b.toNat := by
  have hb : b.toNat < 256 := b.isLt
  rw [chunkValue_append]
  omega

/-- A chunk that begins with a byte other than 0 has a value other than 0. -/
theorem chunkValue_ne_zero {c : List (BitVec 8)} (hne : c ≠ []) (hc : ∀ b, c.head? = some b → b ≠ 0#8) :
    chunkValue c ≠ 0 := by
  induction c using List.reverseRecOn with
  | nil => exact absurd rfl hne
  | append_singleton c b ih =>
    rw [chunkValue_append]
    by_cases h0 : c = []
    · subst h0
      have hb : b.toNat ≠ 0 := fun h => hc b rfl (BitVec.eq_of_toNat_eq h)
      omega
    · have := ih h0 fun b' hb' => hc b' (by rw [List.head?_append, hb', Option.some_or])
      omega

/-- The remainders of a chunk's value, least significant first, are its bytes reversed; the division ends in time. -/
theorem remainders65536_chunkValue {fuel : Nat} {c : List (BitVec 8)} (hne : c ≠ [])
    (hc : ∀ b, c.head? = some b → b ≠ 0#8) (hf : chunkValue c < 2 ^ fuel) :
    remainders65536 fuel (chunkValue c) = (c.map BitVec.toNat).reverse := by
  induction c using List.reverseRecOn generalizing fuel with
  | nil => exact absurd rfl hne
  | append_singleton c b ih =>
    obtain ⟨hdiv, hmod⟩ := chunkValue_append_div_mod c b
    cases fuel with
    | zero => exact absurd (Nat.lt_one_iff.mp hf) (chunkValue_ne_zero hne hc)
    | succ fuel =>
      rw [remainders65536, hdiv, hmod, List.map_append, List.reverse_append]
      by_cases h0 : c = []
      · subst h0
        rfl
      · have hc' : ∀ b', c.head? = some b' → b' ≠ 0#8 := fun b' hb' =>
          hc b' (by rw [List.head?_append, hb', Option.some_or])
        have hlt : chunkValue c < 2 ^ fuel := by
          rw [chunkValue_append, pow_succ] at hf
          omega
        rw [if_neg (chunkValue_ne_zero h0 hc'), ih h0 hc' hlt]
        rfl

/-- The digits of a chunk's value are its bytes (R93). -/
theorem valueDigits_chunkValue {c : List (BitVec 8)} (hne : c ≠ []) (hc : ∀ b, c.head? = some b → b ≠ 0#8) :
    valueDigits false (chunkValue c) = c.map BitVec.toNat := by
  rw [valueDigits, remainders65536_chunkValue hne hc Nat.lt_log2_self, List.reverse_reverse]
  exact List.append_nil _

theorem chunksOf_cons {α : Type} (g fuel : Nat) (x : α) (l : List α) :
    chunksOf g (fuel + 1) (x :: l) = (x :: l).take g :: chunksOf g fuel ((x :: l).drop g) := rfl

/-- The chunks are not empty and make up the list again. -/
theorem chunksOf_spec {α : Type} {g : Nat} (hg : 1 ≤ g) : ∀ {fuel : Nat} {l : List α}, l.length ≤ fuel →
    (chunksOf g fuel l).flatten = l ∧ ∀ c ∈ chunksOf g fuel l, c ≠ []
  | 0, [], _ => by simp [chunksOf]
  | _ + 1, [], _ => by simp [chunksOf]
  | fuel + 1, x :: l, h => by
    have hdrop : ((x :: l).drop g).length ≤ fuel := by
      rw [List.length_drop]
      rw [List.length_cons] at h ⊢
      omega
    obtain ⟨hflat, hne⟩ := chunksOf_spec hg hdrop
    rw [chunksOf_cons]
    refine ⟨by rw [List.flatten_cons, hflat, List.take_append_drop], fun c hc => ?_⟩
    rcases List.mem_cons.mp hc with rfl | hc
    · obtain ⟨n, rfl⟩ : ∃ n, g = n + 1 := ⟨g - 1, by omega⟩
      simp
    · exact hne c hc

theorem toDigits_chunkValues {cs : List (List (BitVec 8))}
    (h : ∀ c ∈ cs, c ≠ [] ∧ ∀ b, c.head? = some b → b ≠ 0#8) :
    toDigits false (cs.map chunkValue) = cs.flatten.map BitVec.toNat := by
  induction cs with
  | nil => rfl
  | cons c cs ih =>
    obtain ⟨hne, hc⟩ := h c List.mem_cons_self
    have ih' := ih fun c' hc' => h c' (List.mem_cons_of_mem c hc')
    rw [toDigits] at ih' ⊢
    rw [List.map_cons, List.flatMap_cons, ih', valueDigits_chunkValue hne hc, List.flatten_cons, List.map_append]

/-- The sentinel's digit is the sentinel. -/
theorem toDigits_padOdd (vs : List Nat) :
    toDigits false (padOdd vs) = toDigits false vs ++ if vs.length % 2 = 1 then [32] else [] := by
  unfold padOdd
  split
  · rw [toDigits, List.flatMap_append]
    rfl
  · rw [List.append_nil]

/-- Settles O56: the digits of each chunk's value are its bytes, and the chunks make up the buffer. -/
theorem digitCodecRoundTrip : Obligations.DigitCodecRoundTrip := by
  intro bytes g hg hheads
  obtain ⟨hflat, hne⟩ := chunksOf_spec hg (le_refl bytes.length)
  rw [fromDigits, toDigits_padOdd, toDigits_chunkValues fun c hc => ⟨hne c hc, hheads c hc⟩, hflat, List.length_map]

/-! ### Encryption and decryption of points (R99, R100) -/

theorem addToAll_cons_eq_ok {a p : Int} {S q : Point} {qs cs : List Point} (h : addToAll a p S (q :: qs) = .ok cs) :
    ∃ c cs', addPoint q S a p = .ok c ∧ addToAll a p S qs = .ok cs' ∧ cs = c :: cs' := by
  unfold addToAll at h
  split at h
  · cases h
  · split at h
    · cases h
    · exact ⟨_, _, ‹_›, ‹_›, (Except.ok.inj h).symm⟩

theorem addToAll_cons_of_ok {a p : Int} {S q c : Point} {qs cs : List Point} (hc : addPoint q S a p = .ok c)
    (hcs : addToAll a p S qs = .ok cs) : addToAll a p S (q :: qs) = .ok (c :: cs) := by
  simp only [addToAll, hc, hcs]

theorem sessionEncrypt_eq_ok {a p : Int} {G Pa kG : Point} {k : Nat} {ms cs : List Point}
    (h : sessionEncrypt a p G Pa k ms = .ok (kG, cs)) :
    multiplyPoint G k a p = .ok kG ∧ ∃ S, multiplyPoint Pa k a p = .ok S ∧ addToAll a p S ms = .ok cs := by
  unfold sessionEncrypt at h
  split at h
  · cases h
  · split at h
    · cases h
    · split at h
      · cases h
      · cases h
        exact ⟨‹_›, _, ‹_›, ‹_›⟩

/-- A point to which `S` was added by the chord comes back by adding either form of `-S` (R96, R101). -/
theorem addPoint_negateAs_of_chord {p : Nat} (hp : p.Prime) {a : Int} {M S C : Point} (hS : S.Canonical p)
    (hSO : S ≠ ⟨0, 0⟩) (hM : M.Canonical p ∧ M ≠ ⟨0, 0⟩ ∧ ¬M.x ≡ S.x [ZMOD p]) (hadd : addPoint M S a p = .ok C)
    (hC : C ≠ ⟨0, 0⟩ ∧ ¬C.x ≡ S.x [ZMOD p]) (form : NegationForm) : addPoint C (negateAs form p S) a p = .ok M := by
  obtain ⟨hMc, hMO, hMS⟩ := hM
  obtain ⟨hCO, hCS⟩ := hC
  have hraw : addPoint C (negateAs .raw p S) a p = .ok M := chordRoundTrip p a M S C hp hMc hMO hSO hMS hadd hCO hCS
  have hne : ∀ form', C ≠ negateAs form' p S := fun form' h => hCS (by rw [h, negateAs_x])
  cases form with
  | raw => exact hraw
  | canonical => rw [← addPoint_negateAs a (by exact_mod_cast hp.pos) hS hCO (hne .raw) (hne .canonical), hraw]

theorem addToAll_negateAs {p : Nat} (hp : p.Prime) {a : Int} {S : Point} (hS : S.Canonical p) (hSO : S ≠ ⟨0, 0⟩)
    (form : NegationForm) {ms cs : List Point} (h : addToAll a p S ms = .ok cs)
    (hms : ∀ m ∈ ms, m.Canonical p ∧ m ≠ ⟨0, 0⟩ ∧ ¬m.x ≡ S.x [ZMOD p])
    (hcs : ∀ c ∈ cs, c ≠ ⟨0, 0⟩ ∧ ¬c.x ≡ S.x [ZMOD p]) : addToAll a p (negateAs form p S) cs = .ok ms := by
  induction ms generalizing cs with
  | nil =>
    cases h
    rfl
  | cons m ms ih =>
    obtain ⟨c, cs, hadd, hrest, rfl⟩ := addToAll_cons_eq_ok h
    have hm := addPoint_negateAs_of_chord hp hS hSO (hms m List.mem_cons_self) hadd (hcs c List.mem_cons_self) form
    exact addToAll_cons_of_ok hm (ih hrest (fun m' hm' => hms m' (List.mem_cons_of_mem m hm'))
      fun c' hc' => hcs c' (List.mem_cons_of_mem c hc'))

/-- Settles O54: both sides compute the multiple `k·n` of `G`, and each point goes there and back by the chord. -/
theorem sessionRoundTrip : Obligations.SessionRoundTrip := by
  intro p hpr a b hb G n k form Pa S kG ms cs hPa hS hSO henc hms hcs
  have hPa' : multiplyPoint (pointOf G) n a p = .ok Pa := hPa
  obtain ⟨hkG, S', hS', hall⟩ := sessionEncrypt_eq_ok henc
  obtain rfl : S = S' := Except.ok.inj (hS.symm.trans hS')
  obtain rfl : pointOf (n • G) = Pa := Except.ok.inj ((multiplyPoint_pointOf hb G n).symm.trans hPa')
  obtain rfl : pointOf (k • G) = kG := Except.ok.inj ((multiplyPoint_pointOf hb G k).symm.trans hkG)
  obtain rfl : pointOf (k • n • G) = S := Except.ok.inj ((multiplyPoint_pointOf hb (n • G) k).symm.trans hS)
  have hshared : multiplyPoint (pointOf (k • G)) n a p = .ok (pointOf (k • n • G)) := by
    rw [multiplyPoint_pointOf hb, smul_comm]
  simp only [sessionDecrypt, hshared]
  exact addToAll_negateAs hpr.out (pointOf_canonical _) hSO form hall hms hcs

/-! ### The whole data flow (R90, R105) -/

theorem constructSession_eq_ok {skipZeros : Bool} {a b p : Int} {n : Nat} {G : Point} {u : Session}
    (h : constructSession skipZeros a b p n G = .ok u) :
    ∃ pa, sessionPublic a p G n = .ok pa ∧
      u = { a := a, b := b, p := p, n := n, g := G, pa := pa, group := groupSize skipZeros n } := by
  unfold constructSession at h
  split at h
  · cases h
  · cases h
    exact ⟨_, ‹_›, rfl⟩

theorem Session.encryptBuffer_eq_ok {u : Session} {k : Nat} {bytes : List (BitVec 8)} {kG : Point} {cs : List Point}
    (h : u.encryptBuffer k bytes = .ok (kG, cs)) :
    codecSymmetric bytes u.group = true ∧
      sessionEncrypt u.a u.p u.g u.pa k (generatePoints (fromDigits bytes u.group)) = .ok (kG, cs) := by
  unfold Session.encryptBuffer at h
  split at h
  · cases h
  · obtain ⟨hsym, rfl⟩ := pointsOfBuffer_eq_ok.mp ‹_›
    exact ⟨hsym, liftEngine_eq_ok.mp h⟩

theorem fromDigits_even (bytes : List (BitVec 8)) (g : Nat) : (fromDigits bytes g).length % 2 = 0 := padOdd_even _

/-- The points of a symmetric buffer give its bytes and its padding back. -/
theorem bufferOfPoints_generatePoints {bytes : List (BitVec 8)} {g : Nat} (h : codecSymmetric bytes g = true) :
    bufferOfPoints false (generatePoints (fromDigits bytes g)) = .ok (bytes ++ paddingOf bytes g) := by
  obtain ⟨-, hdigits⟩ := codecSymmetric_iff.mp h
  rw [bufferOfPoints, pointCodecRoundTrip _ (fromDigits_even bytes g), toValues_map_cast]
  simp only [hdigits, toBytes_map_toNat]

/-- Settles O58: the session gives the points back, and the codec the bytes; an empty buffer is not symmetric. -/
theorem bufferRoundTrip : Obligations.BufferRoundTrip := by
  refine ⟨?_, fun u k => ?_⟩
  · intro p hpr a b hb G n k skipZeros form u S kG bytes cs hu hS hSO henc hms hcs
    obtain ⟨pa, hpa, rfl⟩ := constructSession_eq_ok hu
    obtain ⟨hsym, henc'⟩ := Session.encryptBuffer_eq_ok henc
    have hdec := sessionRoundTrip p a b hb G n k form pa S kG _ cs hpa hS hSO henc' hms hcs
    rw [Session.decryptBuffer, liftEngine_eq_ok.mpr hdec]
    exact bufferOfPoints_generatePoints hsym
  · have hempty : codecSymmetric [] u.group = false := by simp [codecSymmetric]
    simp [Session.encryptBuffer, pointsOfBuffer, hempty]

end Sys2Proof.Machine
end
